-- ==== Sys2Proof/Word.lean ====
section
/-! DEFINITION. The widths of SMA16: a word is 16 bits, of which bits 15 to 12 are the INST segment and bits 11 to 0
the DATA segment; an address is 12 bits and names a word (00_scope.md rules R6, R8, R9). -/

namespace Sys2Proof

/-- A character code sent to the console, and the byte in which memory is held (log 5). -/
abbrev Byte := BitVec 8

/-- The word: the unit of memory, of `$ACC`, of `$IR`, of the stack and of an instruction (R1). -/
abbrev Word := BitVec 16

/-- A DATA segment: bits 11 to 0 of a word (R9). -/
abbrev Data := BitVec 12

/-- A word address: 12 bits (R51). Any DATA segment is one. -/
abbrev Addr := BitVec 12

/-- An INST segment: bits 15 to 12 of a word, the opcode of an instruction (R81). -/
abbrev Opcode := BitVec 4

end Sys2Proof
end

