-- ==== Sys2Proof/Syntax.lean ====
section
/-! DEFINITION. The instructions: one constructor per row of spec/opcode_table.json, with the operand R82 gives it.
An ignored operand (R85) is kept, since it is data that `LOAD` and `STORE` can reach. -/

namespace Sys2Proof

/-- What a shift acts on: the segment-select bit `m` of R83. -/
inductive Segment where
  /-- `m = 0`: all 16 bits of `$ACC`. -/
  | whole
  /-- `m = 1`: `$ACC.DATA` only. -/
  | data
deriving DecidableEq, Repr

/-- The sixteen rows of the opcode map (R84). -/
inductive Instr where
  /-- `0x0`, R100. -/
  | halt (ignored : Data)
  /-- `0x1`, R150. -/
  | reserved1 (ignored : Data)
  /-- `0x2`, R101. -/
  | jump (target : Addr)
  /-- `0x3`, R102. -/
  | jumpz (target : Addr)
  /-- `0x4`, R110. -/
  | load (addr : Addr)
  /-- `0x5`, R111. -/
  | store (addr : Addr)
  /-- `0x6`, R120. The count is a number (R83: "an unsigned 11-bit number"), bounded in `WellFormed`. -/
  | lshft (count : Nat) (segment : Segment)
  /-- `0x7`, R121. -/
  | rshft (count : Nat) (segment : Segment)
  /-- `0x8`, R122. -/
  | xor (imm : Data)
  /-- `0x9`, R123. -/
  | and (imm : Data)
  /-- `0xA`, R112. -/
  | sfull (addr : Addr)
  /-- `0xB`, R124. -/
  | add (imm : Data)
  /-- `0xC`, R151. -/
  | reserved2 (ignored : Data)
  /-- `0xD`, R140. -/
  | pop (ignored : Data)
  /-- `0xE`, R141. -/
  | push (ignored : Data)
  /-- `0xF`, R103. -/
  | noop (ignored : Data)
deriving DecidableEq, Repr

end Sys2Proof
end

