-- ==== Sys2Proof/WellFormed.lean ====
section
/-! DEFINITION. Which instructions an encoding exists for. Every operand but the shift count is bounded by its type; a
shift count is "an unsigned 11-bit number from 0 to 2047" (30_encoding.md R83). -/

namespace Sys2Proof

/-- `i` has an encoding: its shift count, if it has one, fits in bits 11 to 1 (R83). No other operand value is illegal
for any opcode (R86). -/
def Instr.wellFormed (i : Instr) : Bool :=
  match i with
  | .halt _ => true
  | .reserved1 _ => true
  | .jump _ => true
  | .jumpz _ => true
  | .load _ => true
  | .store _ => true
  | .lshft n _ => decide (n < 2048)
  | .rshft n _ => decide (n < 2048)
  | .xor _ => true
  | .and _ => true
  | .sfull _ => true
  | .add _ => true
  | .reserved2 _ => true
  | .pop _ => true
  | .push _ => true
  | .noop _ => true

end Sys2Proof
end

