-- ==== Sys2Proof/Decode.lean ====
section
/-! DEFINITION. The decoder and the encoder, from 30_encoding.md R80 to R85; the bit-field and byte-order helpers. -/

namespace Sys2Proof

/-! ### Segments and bytes of a word -/

/-- `w.INST`: bits 15 to 12 (R8, R9). -/
def instOf (w : Word) : Opcode := w.extractLsb' 12 4

/-- `w.DATA`: bits 11 to 0 (R8, R9). -/
def dataOf (w : Word) : Data := w.extractLsb' 0 12

/-- `{inst, data}`: the word with these two segments (R81). -/
def joinSegments (inst : Opcode) (data : Data) : Word := inst ++ data

/-- `zext_16(d)`: the word whose DATA segment is `d` and whose INST segment is zero (R10). -/
def zextData (d : Data) : Word := joinSegments 0x0#4 d

/-- Bits 7 to 0 of a word. -/
def lowByte (w : Word) : Byte := w.extractLsb' 0 8

/-- Bits 15 to 8 of a word. -/
def highByte (w : Word) : Byte := w.extractLsb' 8 8

/-- The word held in two bytes, the low byte at the lower byte address. DESIGN CHOICE (log 5), safe: the architecture
has no byte order to observe (20_memory.md R53). -/
def wordOfBytes (low high : Byte) : Word := high ++ low

/-! ### Shift control (R83) -/

/-- The shift count of an operand: `IR.DATA<1:>`, bits 11 to 1, used as a number. -/
def shiftCount (d : Data) : Nat := (d.extractLsb' 1 11).toNat

/-- The segment-select bit of an operand: `IR.DATA<0>`. -/
def shiftSegment (d : Data) : Segment := if d.getLsbD 0 then .data else .whole

/-- The segment-select bit that stands for a segment. -/
def Segment.bit (g : Segment) : BitVec 1 :=
  match g with
  | .whole => 0#1
  | .data => 1#1

/-- The operand `2 * n + m` (R83). -/
def shiftOperand (n : Nat) (g : Segment) : Data := BitVec.ofNat 11 n ++ g.bit

/-! ### Decoding -/

/-- The instruction a word stands for: R84's map, read by its "binary" column, bits 15, 14, 13 and 12. Every word is
exactly one row, so there is no refusal and no wildcard. -/
def decodeWord (w : Word) : Instr :=
  match w.getLsbD 15, w.getLsbD 14, w.getLsbD 13, w.getLsbD 12 with
  | false, false, false, false => .halt (dataOf w)
  | false, false, false, true => .reserved1 (dataOf w)
  | false, false, true, false => .jump (dataOf w)
  | false, false, true, true => .jumpz (dataOf w)
  | false, true, false, false => .load (dataOf w)
  | false, true, false, true => .store (dataOf w)
  | false, true, true, false => .lshft (shiftCount (dataOf w)) (shiftSegment (dataOf w))
  | false, true, true, true => .rshft (shiftCount (dataOf w)) (shiftSegment (dataOf w))
  | true, false, false, false => .xor (dataOf w)
  | true, false, false, true => .and (dataOf w)
  | true, false, true, false => .sfull (dataOf w)
  | true, false, true, true => .add (dataOf w)
  | true, true, false, false => .reserved2 (dataOf w)
  | true, true, false, true => .pop (dataOf w)
  | true, true, true, false => .push (dataOf w)
  | true, true, true, true => .noop (dataOf w)

/-- Why a list of bytes holds no instruction. -/
inductive DecodeError where
  /-- Fewer than two bytes: not one whole word (R80: every instruction is exactly one 16-bit word). -/
  | truncated
deriving DecidableEq, Repr

/-- Decoding on bytes: the first word's instruction and the bytes after it. -/
def decode (bytes : List Byte) : Except DecodeError (Instr × List Byte) :=
  match bytes with
  | low :: high :: rest => .ok (decodeWord (wordOfBytes low high), rest)
  | [_] => .error .truncated
  | [] => .error .truncated

/-! ### Encoding -/

/-- The opcode of an instruction (R84, column "opcode"). -/
def opcodeOf (i : Instr) : Opcode :=
  match i with
  | .halt _ => 0x0#4
  | .reserved1 _ => 0x1#4
  | .jump _ => 0x2#4
  | .jumpz _ => 0x3#4
  | .load _ => 0x4#4
  | .store _ => 0x5#4
  | .lshft _ _ => 0x6#4
  | .rshft _ _ => 0x7#4
  | .xor _ => 0x8#4
  | .and _ => 0x9#4
  | .sfull _ => 0xA#4
  | .add _ => 0xB#4
  | .reserved2 _ => 0xC#4
  | .pop _ => 0xD#4
  | .push _ => 0xE#4
  | .noop _ => 0xF#4

/-- The 12-bit operand of an instruction (R82, R83). -/
def operandOf (i : Instr) : Data :=
  match i with
  | .halt d => d
  | .reserved1 d => d
  | .jump d => d
  | .jumpz d => d
  | .load d => d
  | .store d => d
  | .lshft n g => shiftOperand n g
  | .rshft n g => shiftOperand n g
  | .xor d => d
  | .and d => d
  | .sfull d => d
  | .add d => d
  | .reserved2 d => d
  | .pop d => d
  | .push d => d
  | .noop d => d

/-- The word of a well-formed instruction: `opcode * 4096 + operand` (R81). -/
def encode (i : Instr) : Word := joinSegments (opcodeOf i) (operandOf i)

/-- The bytes of a well-formed instruction, as memory holds them. -/
def encodeBytes (i : Instr) : List Byte := [lowByte (encode i), highByte (encode i)]

/-- The instruction the decoder reads from a row of spec/opcode_table.json whose bits are `w`: bits at and above
`nbits` are zero, and the word is laid out as memory holds it. -/
def decodeTableWord (nbits w : Nat) : Option Instr :=
  let word : Word := BitVec.ofNat 16 (w % 2 ^ nbits)
  match decode [lowByte word, highByte word] with
  | .ok (i, _) => some i
  | .error _ => none

end Sys2Proof
end

