-- ==== Sys2Proof/Config.lean ====
section
/-! DEFINITION. What an implementation of SMA16 chooses (00_scope.md R5), and the free value of a console port's read. -/

namespace Sys2Proof

/-- What an access to the reserved addresses `0x00E` and `0x00F` does: the parameter `RESERVED_ADDR` of D15. -/
inductive ReservedCells where
  /-- The model refuses the access (R31). -/
  | refuse
  /-- The two addresses are ordinary 16-bit cells. -/
  | ram
deriving DecidableEq, Repr

/-- The implementation parameters of R5. They are constants of a run (R35): no step changes them (log 1). -/
structure Config where
  /-- `STACK_DEPTH`: 0 (no stack) or at least 16. -/
  stackDepth : Nat
  /-- `RESERVED_FAULTS(0x1)` (R150, D11). -/
  reserved1Faults : Bool
  /-- `RESERVED_FAULTS(0xC)` (R151, D11). -/
  reserved2Faults : Bool
  /-- `HAS_CONSOLE` (R34, D30). -/
  hasConsole : Bool
  /-- `SMALL_HIGH_FIRST` (R176, D17). -/
  smallHighFirst : Bool
  /-- `RESERVED_ADDR` (D15). -/
  reservedCells : ReservedCells
  /-- The opcodes, other than those of `POP` and `PUSH`, that the implementation leaves out: the open table `IMPL` of
  R152 and D10 (log 12). R153 fixes it to none. -/
  omitted : List Opcode
deriving DecidableEq, Repr

/-- The parameters the reset state has: those 95_test_vectors.md takes "unless a vector says otherwise", with the
refusals of R31 and the implemented instructions of R153. DESIGN CHOICE (log 2), unsafe for a statement about the reset
state alone: an implementation may have others. -/
def Config.standard : Config :=
  { stackDepth := 16
    reserved1Faults := true
    reserved2Faults := true
    hasConsole := true
    smallHighFirst := true
    reservedCells := .refuse
    omitted := [] }

/-- FREE VALUE (log 7): the word the `k`-th read of a write-only console port gives. 20_memory.md R56: "the read returns
an unspecified 16-bit value, which the model takes as a free input of the step (any value)". -/
opaque Config.freeWord : Nat → Word

end Sys2Proof
end

