-- ==== Sys2Proof/Machine/State.lean ====
section
/-! DEFINITION. The state of the machine (10_state.md R20), the ways a step can stop, and the state after reset (R36). -/

namespace Sys2Proof.Machine

/-- Main memory, outside the memory-mapped registers: (byte address, byte) pairs in the canonical form `Memory.wf`. -/
abbrev Memory := List Host.Cell

/-- The complete architectural state (R20), and two fields of the model's own, `cfg` and `portReads`. -/
structure State where
  /-- `$PC` (R21). -/
  pc : Addr
  /-- `$IR` (R22). -/
  ir : Word
  /-- `$ACC` (R23). -/
  acc : Word
  /-- `$SR<H>`, the halt flag (R25). -/
  h : Bool
  /-- `$SR<Z>`, the zero flag (R26). -/
  z : Bool
  /-- `MEMORY` (R33), but for the registers at `0x008`, `0x009`, `0x00C` and `0x00D`, which are the next four fields,
  and the ports at `0x00A` and `0x00B`, which store nothing (log 6). -/
  mem : Memory
  /-- `$INTERRUPT_REASON`, address `0x008` (R27). -/
  interruptReason : Word
  /-- `$INTERRUPT_RETURN`, address `0x009`, 12 bits (R28). -/
  interruptReturn : Addr
  /-- `$TERMINAL_CONFIG`, address `0x00C` (R29). -/
  terminalConfig : Word
  /-- `$STACK_SIZE`, address `0x00D` (R30). -/
  stackSize : Word
  /-- `STACK` as R32 writes it: `[s_1, ..., s_n]`, the top last. -/
  stack : List Word
  /-- `OUT`, the characters sent to the console, oldest first (R34). -/
  out : List Byte
  /-- MODEL'S OWN (log 1): the implementation parameters of R5. -/
  cfg : Config
  /-- MODEL'S OWN (log 7): how many free values reads of the console ports have taken. -/
  portReads : Nat
deriving DecidableEq, Repr

/-- The reasons for which the machine would stop with a fault: none. The architecture has no memory fault, no
alignment fault and no fetch fault (R54, R61, R161, R165), and its one exception, the source's "fault", is a next state
(R162). Safe: nobody raises it (log 13). -/
inductive Fault where
deriving DecidableEq, Repr

/-- The reasons for which a step has no meaning: the cases the spec calls `UNDEFINED` (R10, R207). Each is safe: no
statement about a next state can be proved of such a step. -/
inductive Refusal where
  /-- An instruction without a meaning in this model. Nobody raises it: every instruction has its meaning. Safe. -/
  | notModelled (mnemonic : String)
  /-- A fetch, `LOAD`, `STORE` or `SFULL` at `0x00E` or `0x00F` where the implementation gives them no meaning (R31,
  D15). Raised by the fetch, `execLoad`, `execStore` and `execSfull`. Safe. -/
  | reservedAddress (addr : Addr)
  /-- The reserved opcode on an implementation that does not fault on it (R150, R151, D11). Raised by `execReserved1`
  and `execReserved2`. Safe. -/
  | reservedOpcode (op : Opcode)
  /-- `POP` on an empty stack (R143, D9). Raised by `execPop`. Safe. -/
  | stackUnderflow
  /-- `PUSH` on a full stack (R143, D9). Raised by `execPush`. Safe. -/
  | stackOverflow
deriving DecidableEq, Repr

/-- The machine right after reset (R36): `$PC`, `$SR`, `$STACK_SIZE`, the stack and the console as the spec states them.
DESIGN CHOICE, unsafe: `$ACC`, `$IR`, `$INTERRUPT_REASON`, `$INTERRUPT_RETURN` and `$TERMINAL_CONFIG` are zero (log 3) and
no byte of memory is listed (log 4), where the spec allows any value ("usually `0x0000`"); the implementation parameters
are `Config.standard` (log 2). `resetEvent` gives reset from any state. -/
def State.reset : State :=
  { pc := 0x000#12
    ir := 0x0000#16
    acc := 0x0000#16
    h := false
    z := false
    mem := []
    interruptReason := 0x0000#16
    interruptReturn := 0x000#12
    terminalConfig := 0x0000#16
    stackSize := BitVec.ofNat 16 (min Config.standard.stackDepth 0xFFFF)
    stack := []
    out := []
    cfg := Config.standard
    portReads := 0 }

end Sys2Proof.Machine
end

