-- ==== Sys2Proof/Machine/Memory.lean ====
section
/-! DEFINITION. Memory as bytes in canonical form, words over it, and the address map (20_memory.md R50 to R53). -/

namespace Sys2Proof.Machine

/-! ### Bytes -/

/-- What a byte that nothing has written reads as. DESIGN CHOICE (log 4), unsafe: the spec allows any value (R36). -/
def Memory.unlisted : Byte := 0x00#8

/-- The byte at a byte address. -/
def Memory.readByte (m : Memory) (a : Nat) : Byte :=
  match m with
  | [] => Memory.unlisted
  | c :: rest => if c.1 = a then c.2 else Memory.readByte rest a

/-- `m` without any entry for the byte address `a`. -/
def Memory.erase (m : Memory) (a : Nat) : Memory :=
  match m with
  | [] => []
  | c :: rest => if c.1 = a then Memory.erase rest a else c :: Memory.erase rest a

/-- `m` with the pair `(a, b)` put before the first entry of a higher address. -/
def Memory.insert (m : Memory) (a : Nat) (b : Byte) : Memory :=
  match m with
  | [] => [(a, b)]
  | c :: rest => if a < c.1 then (a, b) :: c :: rest else c :: Memory.insert rest a b

/-- `m` with the byte `b` at the byte address `a`, in canonical form: the unlisted value is not listed. -/
def Memory.writeByte (m : Memory) (a : Nat) (b : Byte) : Memory :=
  if b = Memory.unlisted then m.erase a else (m.erase a).insert a b

/-- The canonical form: addresses strictly rising, and no entry that holds the unlisted value. -/
abbrev Memory.wf (m : Memory) : Prop :=
  m.Pairwise (fun c c' => c.1 < c'.1) ∧ ∀ c ∈ m, c.2 ≠ Memory.unlisted

/-- Every entry is a byte of one of the 4096 words (R33, D1). -/
abbrev Memory.inSpace (m : Memory) : Prop :=
  ∀ c ∈ m, c.1 < 2 * 4096

/-! ### Words -/

/-- The byte address of the lower byte of the word at `a` (log 5). -/
def byteAddress (a : Addr) : Nat := 2 * a.toNat

/-- The word at a word address. -/
def Memory.readWord (m : Memory) (a : Addr) : Word :=
  wordOfBytes (m.readByte (byteAddress a)) (m.readByte (byteAddress a + 1))

/-- `m` with the word `w` at the word address `a`. -/
def Memory.writeWord (m : Memory) (a : Addr) (w : Word) : Memory :=
  (m.writeByte (byteAddress a) (lowByte w)).writeByte (byteAddress a + 1) (highByte w)

/-! ### The address map -/

/-- The kinds of address of R52. -/
inductive Region where
  | ordinary
  | interruptReason
  | interruptReturn
  | asciiOut
  | smallOut
  | terminalConfig
  | stackSize
  | reserved
deriving DecidableEq, Repr

/-- The kind of a word address (R52): the vectors `0x000` to `0x007` are ordinary memory, as is `0x010` to `0xFFF`. -/
def regionOf (a : Addr) : Region :=
  if a = 0x008#12 then .interruptReason
  else if a = 0x009#12 then .interruptReturn
  else if a = 0x00A#12 then .asciiOut
  else if a = 0x00B#12 then .smallOut
  else if a = 0x00C#12 then .terminalConfig
  else if a = 0x00D#12 then .stackSize
  else if a = 0x00E#12 then .reserved
  else if a = 0x00F#12 then .reserved
  else .ordinary

/-- `@RESET_VECTOR` (R168). -/
def resetVector : Addr := 0x000#12

/-- `@FAULT_VECTOR` (R168). -/
def faultVector : Addr := 0x001#12

end Sys2Proof.Machine
end

