-- ==== Sys2Proof/Machine/Console.lean ====
section
/-! DEFINITION. The console output: the two ports and the SMALL encoding (60_exceptions.md R174 to R177). -/

namespace Sys2Proof.Machine

/-- `ConsoleSend(c)`: appends the character to `OUT`; nothing where there is no console (R34, D30). -/
def consoleSend (s : State) (c : Byte) : State :=
  if s.cfg.hasConsole then { s with out := s.out ++ [c] } else s

/-- The ASCII code of a SMALL code, or none for NULL, which is never sent (R177, in its closed form). PRESUMED (log 42,
K2 of the spec): the ASCII numbers are general knowledge, not the source's. -/
def smallAscii (c : BitVec 6) : Option Byte :=
  if c.toNat < 26 then some (BitVec.ofNat 8 (0x41 + c.toNat))
  else if c.toNat < 52 then some (BitVec.ofNat 8 (0x61 + (c.toNat - 26)))
  else if c.toNat < 62 then some (BitVec.ofNat 8 (0x30 + (c.toNat - 52)))
  else if c.toNat = 62 then some 0x20#8
  else none

/-- Processing one SMALL code: NULL is omitted, any other code is sent (R176). -/
def smallSend (s : State) (c : BitVec 6) : State :=
  match smallAscii c with
  | some b => consoleSend s b
  | none => s

/-- A write to `@ASCII_OUT`: the low eight bits are sent as one character (R175). -/
def asciiPort (s : State) (v : Data) : State := consoleSend s (v.extractLsb' 0 8)

/-- A write to `@SMALL_OUT`: two SMALL codes, bits 11 to 6 first where `SMALL_HIGH_FIRST` holds (R176, D17). -/
def smallPort (s : State) (v : Data) : State :=
  let high : BitVec 6 := v.extractLsb' 6 6
  let low : BitVec 6 := v.extractLsb' 0 6
  if s.cfg.smallHighFirst then smallSend (smallSend s high) low
  else smallSend (smallSend s low) high

end Sys2Proof.Machine
end

