-- ==== Sys2Proof/Machine/Ops.lean ====
section
/-! DEFINITION. The named operations every meaning is written with: register updates, the read and write primitives of
20_memory.md R56 to R58, the stack primitives of R142, the fault entry of R162, the fetch of R39, and reset (R200). -/

namespace Sys2Proof.Machine

/-! ### Registers -/

/-- `PC <- a`. -/
def State.setPc (s : State) (a : Addr) : State := { s with pc := a }

/-- `IR <- w`. -/
def State.setIr (s : State) (w : Word) : State := { s with ir := w }

/-- `ACC <- w`. -/
def State.setAcc (s : State) (w : Word) : State := { s with acc := w }

/-- `SR.H <- b`. -/
def State.setH (s : State) (b : Bool) : State := { s with h := b }

/-- `SR.Z <- b`. -/
def State.setZ (s : State) (b : Bool) : State := { s with z := b }

/-- `MEMORY <- m`, outside the memory-mapped registers. -/
def State.setMem (s : State) (m : Memory) : State := { s with mem := m }

/-- `$INTERRUPT_REASON <- w`. -/
def State.setInterruptReason (s : State) (w : Word) : State := { s with interruptReason := w }

/-- `$INTERRUPT_RETURN <- a`. -/
def State.setInterruptReturn (s : State) (a : Addr) : State := { s with interruptReturn := a }

/-- `$TERMINAL_CONFIG <- w`. -/
def State.setTerminalConfig (s : State) (w : Word) : State := { s with terminalConfig := w }

/-- `$STACK_SIZE <- w`. -/
def State.setStackSize (s : State) (w : Word) : State := { s with stackSize := w }

/-- `STACK <- l`. -/
def State.setStack (s : State) (l : List Word) : State := { s with stack := l }

/-- The next free value is another one (log 7). -/
def State.takePortRead (s : State) : State := { s with portReads := s.portReads + 1 }

/-- `next(PC) = (PC + 1) mod 4096` (R21, D2): the 12-bit sum wraps. -/
def nextPc (pc : Addr) : Addr := pc + 1#12

/-- `PC <- next(PC)`: how every instruction ends unless its rule says otherwise (R21). -/
def advance (s : State) : State := s.setPc (nextPc s.pc)

/-! ### The read and write primitives -/

/-- `MemRead(a, 16)` (R56), for `LOAD` and for the fetch. A console port gives a free value (D16, log 7); a reserved
address is refused unless the implementation has cells there (R31, D15). -/
def memRead (s : State) (a : Addr) : Except Refusal (Word × State) :=
  match regionOf a with
  | .ordinary => .ok (s.mem.readWord a, s)
  | .interruptReason => .ok (s.interruptReason, s)
  | .interruptReturn => .ok (zextData s.interruptReturn, s)
  | .asciiOut => .ok (Config.freeWord s.portReads, s.takePortRead)
  | .smallOut => .ok (Config.freeWord s.portReads, s.takePortRead)
  | .terminalConfig => .ok (s.terminalConfig, s)
  | .stackSize => .ok (s.stackSize, s)
  | .reserved =>
    match s.cfg.reservedCells with
    | .ram => .ok (s.mem.readWord a, s)
    | .refuse => .error (.reservedAddress a)

/-- `MemWrite(a, 16, v)` (R57). -/
def memWrite16 (s : State) (a : Addr) (v : Word) : Except Refusal State :=
  match regionOf a with
  | .ordinary => .ok (s.setMem (s.mem.writeWord a v))
  | .interruptReason => .ok (s.setInterruptReason v)
  | .interruptReturn => .ok (s.setInterruptReturn (dataOf v))
  | .asciiOut => .ok (asciiPort s (dataOf v))
  | .smallOut => .ok (smallPort s (dataOf v))
  | .terminalConfig => .ok (s.setTerminalConfig v)
  | .stackSize => .ok (s.setStackSize v)
  | .reserved =>
    match s.cfg.reservedCells with
    | .ram => .ok (s.setMem (s.mem.writeWord a v))
    | .refuse => .error (.reservedAddress a)

/-- `{c[15:12], v}`: a cell whose DATA segment is replaced and whose INST segment is kept (R58). -/
def withData (c : Word) (v : Data) : Word := joinSegments (instOf c) v

/-- `MemWrite(a, 12, v)` (R58). -/
def memWrite12 (s : State) (a : Addr) (v : Data) : Except Refusal State :=
  match regionOf a with
  | .ordinary => .ok (s.setMem (s.mem.writeWord a (withData (s.mem.readWord a) v)))
  | .interruptReason => .ok (s.setInterruptReason (withData s.interruptReason v))
  | .interruptReturn => .ok (s.setInterruptReturn v)
  | .asciiOut => .ok (asciiPort s v)
  | .smallOut => .ok (smallPort s v)
  | .terminalConfig => .ok (s.setTerminalConfig (withData s.terminalConfig v))
  | .stackSize => .ok (s.setStackSize (withData s.stackSize v))
  | .reserved =>
    match s.cfg.reservedCells with
    | .ram => .ok (s.setMem (s.mem.writeWord a (withData (s.mem.readWord a) v)))
    | .refuse => .error (.reservedAddress a)

/-! ### The stack primitives (R142) -/

/-- `Push(v)`, defined when the stack holds fewer than `STACK_DEPTH` words. -/
def pushStack (s : State) (v : Word) : Option State :=
  if s.stack.length < s.cfg.stackDepth then some (s.setStack (s.stack ++ [v])) else none

/-- `Pop()`, defined when the stack holds a word: the top word, and the state without it. -/
def popStack (s : State) : Option (Word × State) :=
  match s.stack.getLast? with
  | some v => some (v, s.setStack s.stack.dropLast)
  | none => none

/-! ### Taking the exception (R162), and which instructions are implemented (R152, R153)

There is no return from it to model: the architecture has no return instruction (R169). -/

/-- `0x0FF0 + op`: the reason code (R161). -/
def faultReason (op : Opcode) : Word := 0x0FF0#16 + op.setWidth 16

/-- `raise Fault(op)` (R162): `$INTERRUPT_RETURN <- next(PC)`, `$INTERRUPT_REASON <- 0x0FF0 + op`,
`PC <- @FAULT_VECTOR`, and nothing else (D27). -/
def raiseFault (op : Opcode) (s : State) : State :=
  ((s.setInterruptReturn (nextPc s.pc)).setInterruptReason (faultReason op)).setPc faultVector

/-- `IMPL(op)` for a defined opcode: `POP` and `PUSH` exactly when `STACK_DEPTH > 0` (R153), any other unless the
implementation leaves it out (R152, log 12). -/
def implemented (c : Config) (op : Opcode) : Bool :=
  if op = 0xD#4 ∨ op = 0xE#4 then decide (0 < c.stackDepth) else !c.omitted.contains op

/-- A defined instruction: its own effect where it is implemented, else `Fault(op)` (R152). -/
def ifImplemented (op : Opcode) (s : State) (effect : Host.Outcome State Fault Refusal) :
    Host.Outcome State Fault Refusal :=
  if implemented s.cfg op then effect else .next (raiseFault op s)

/-! ### Fetch and reset -/

/-- The fetch of R39: `IR <- MemRead(PC, 16)`, with `PC` unchanged. Gives the word and the state that holds it. -/
def fetch (s : State) : Except Refusal (Word × State) :=
  match memRead s s.pc with
  | .ok (w, t) => .ok (w, t.setIr w)
  | .error r => .error r

/-- `min(STACK_DEPTH, 0xFFFF)` (R30). -/
def stackSizeAtReset (c : Config) : Word := BitVec.ofNat 16 (min c.stackDepth 0xFFFF)

/-- Reset or startup in any state (R36, R200). What the spec lets hold "any value" keeps the value it had: since the
state before is arbitrary, so is that value (log 10). -/
def resetEvent (s : State) : State :=
  { s with
    pc := resetVector
    h := false
    z := false
    stackSize := stackSizeAtReset s.cfg
    stack := []
    out := [] }

/-- Whether a word can be placed at an address so that a fetch there reads all its 16 bits. -/
def holdsWord (a : Addr) : Bool :=
  match regionOf a with
  | .ordinary => true
  | .interruptReason => true
  | .terminalConfig => true
  | .stackSize => true
  | .interruptReturn => false
  | .asciiOut => false
  | .smallOut => false
  | .reserved => false

/-- `s` with the word `w` at `PC`, where the next step fetches, by whoever loads the program (R204, log 9). A program is
loaded before a run, so the CPU is not halted; where `PC` names no cell that holds a word, it becomes the reset vector. -/
def placeWord (s : State) (w : Word) : State :=
  let a : Addr := if holdsWord s.pc then s.pc else resetVector
  let t : State := (s.setH false).setPc a
  match memWrite16 t a w with
  | .ok u => u
  | .error _ => t

end Sys2Proof.Machine
end

