-- ==== Sys2Proof/Machine/Flags.lean ====
section
/-! DEFINITION. The flags of `$SR` (10_state.md R24 to R26). -/

namespace Sys2Proof.Machine

/-- The zero flag `ADD` computes: whether the DATA segment of the new `$ACC` is zero (R124, R26). -/
def zeroFlag (acc : Word) : Bool := decide (dataOf acc = 0x000#12)

/-- `$SR` as a 2-bit number, bit 1 = H and bit 0 = Z (R24, D3). No instruction reads it; it is for printing a state. -/
def statusNumber (s : State) : BitVec 2 := BitVec.ofBool s.h ++ BitVec.ofBool s.z

end Sys2Proof.Machine
end

