-- ==== Sys2Proof/Machine/Operands.lean ====
section
/-! DEFINITION. How the ALU instructions use their operand (30_encoding.md R82, R83; 42_alu.md). -/

namespace Sys2Proof.Machine

/-- `$ACC` with its DATA segment put through `f` and its INST segment kept: the `XOR` and `AND` form (R122, R123). -/
def onData (f : Data → Data) (acc : Word) : Word := withData acc (f (dataOf acc))

/-- `ACC + zext_16(d)`, modulo 2^16 (R124, D6). -/
def addImmediate (acc : Word) (d : Data) : Word := acc + zextData d

/-- The left shift of the selected segment (R120): zeros enter, bits shifted out of the segment are lost, the count is
used whole (D7). -/
def shiftLeft (n : Nat) (g : Segment) (acc : Word) : Word :=
  match g with
  | .whole => acc <<< n
  | .data => onData (fun d => d <<< n) acc

/-- The logical right shift of the selected segment (R121, D7). -/
def shiftRight (n : Nat) (g : Segment) (acc : Word) : Word :=
  match g with
  | .whole => acc >>> n
  | .data => onData (fun d => d >>> n) acc

end Sys2Proof.Machine
end

