-- ==== Sys2Proof/Machine/Alu.lean ====
section
/-! DEFINITION. LSHFT, RSHFT, XOR, AND, ADD (42_alu.md). Only ADD writes a flag (R126, D8). -/

namespace Sys2Proof.Machine

/-- R120. -/
def execLshft (count : Nat) (segment : Segment) (s : State) : Host.Outcome State Fault Refusal :=
  ifImplemented 0x6#4 s (.next (advance (s.setAcc (shiftLeft count segment s.acc))))

/-- R121. -/
def execRshft (count : Nat) (segment : Segment) (s : State) : Host.Outcome State Fault Refusal :=
  ifImplemented 0x7#4 s (.next (advance (s.setAcc (shiftRight count segment s.acc))))

/-- R122: `ACC <- {ACC[15:12], ACC[11:0] xor d}`. -/
def execXor (imm : Data) (s : State) : Host.Outcome State Fault Refusal :=
  ifImplemented 0x8#4 s (.next (advance (s.setAcc (onData (fun d => d ^^^ imm) s.acc))))

/-- R123: `ACC <- {ACC[15:12], ACC[11:0] and d}`. -/
def execAnd (imm : Data) (s : State) : Host.Outcome State Fault Refusal :=
  ifImplemented 0x9#4 s (.next (advance (s.setAcc (onData (fun d => d &&& imm) s.acc))))

/-- R124: `ACC <- (ACC + zext_16(d)) mod 2^16`, then `SR.Z` from the DATA segment of the new `ACC`. -/
def execAdd (imm : Data) (s : State) : Host.Outcome State Fault Refusal :=
  ifImplemented 0xB#4 s
    (.next (advance ((s.setAcc (addImmediate s.acc imm)).setZ (zeroFlag (addImmediate s.acc imm)))))

end Sys2Proof.Machine
end

