-- ==== Sys2Proof/Machine/Control.lean ====
section
/-! DEFINITION. HALT, JUMP, JUMPZ, NOOP (40_control.md). -/

namespace Sys2Proof.Machine

/-- R100: `SR.H <- 1; PC <- next(PC)` (D29). The operand is ignored. -/
def execHalt (_ignored : Data) (s : State) : Host.Outcome State Fault Refusal :=
  ifImplemented 0x0#4 s (.next (advance (s.setH true)))

/-- R101: `PC <- d`. -/
def execJump (target : Addr) (s : State) : Host.Outcome State Fault Refusal :=
  ifImplemented 0x2#4 s (.next (s.setPc target))

/-- R102: `if SR.Z = 1 then PC <- d else PC <- next(PC)` (C2). -/
def execJumpz (target : Addr) (s : State) : Host.Outcome State Fault Refusal :=
  ifImplemented 0x3#4 s (.next (if s.z then s.setPc target else advance s))

/-- R103: `PC <- next(PC)`. The operand is ignored. -/
def execNoop (_ignored : Data) (s : State) : Host.Outcome State Fault Refusal :=
  ifImplemented 0xF#4 s (.next (advance s))

end Sys2Proof.Machine
end

