-- ==== Sys2Proof/Machine/MemoryAccess.lean ====
section
/-! DEFINITION. LOAD, STORE, SFULL (41_memory_access.md). -/

namespace Sys2Proof.Machine

/-- R110: `ACC <- MemRead(d, 16); PC <- next(PC)`. -/
def execLoad (addr : Addr) (s : State) : Host.Outcome State Fault Refusal :=
  ifImplemented 0x4#4 s
    (match memRead s addr with
    | .ok (w, t) => .next (advance (t.setAcc w))
    | .error r => .refused r)

/-- R111: `MemWrite(d, 12, ACC.DATA); PC <- next(PC)`. -/
def execStore (addr : Addr) (s : State) : Host.Outcome State Fault Refusal :=
  ifImplemented 0x5#4 s
    (match memWrite12 s addr (dataOf s.acc) with
    | .ok t => .next (advance t)
    | .error r => .refused r)

/-- R112: `MemWrite(d, 16, ACC); PC <- next(PC)`. -/
def execSfull (addr : Addr) (s : State) : Host.Outcome State Fault Refusal :=
  ifImplemented 0xA#4 s
    (match memWrite16 s addr s.acc with
    | .ok t => .next (advance t)
    | .error r => .refused r)

end Sys2Proof.Machine
end

