-- ==== Sys2Proof/Machine/Reserved.lean ====
section
/-! DEFINITION. The reserved opcodes (44_reserved.md R150, R151). -/

namespace Sys2Proof.Machine

/-- R150: `Fault(0x1)` where the implementation faults on it, else `UNDEFINED` (D11). The operand plays no part. -/
def execReserved1 (_ignored : Data) (s : State) : Host.Outcome State Fault Refusal :=
  if s.cfg.reserved1Faults then .next (raiseFault 0x1#4 s) else .refused (.reservedOpcode 0x1#4)

/-- R151: `Fault(0xC)` where the implementation faults on it, else `UNDEFINED` (D11). -/
def execReserved2 (_ignored : Data) (s : State) : Host.Outcome State Fault Refusal :=
  if s.cfg.reserved2Faults then .next (raiseFault 0xC#4 s) else .refused (.reservedOpcode 0xC#4)

end Sys2Proof.Machine
end

