-- ==== Sys2Proof/Machine/Stack.lean ====
section
/-! DEFINITION. POP, PUSH (43_stack.md). -/

namespace Sys2Proof.Machine

/-- R140: `Fault(0xD)` where there is no stack, `UNDEFINED` on an empty one (R143), else `ACC <- Pop()`. -/
def execPop (_ignored : Data) (s : State) : Host.Outcome State Fault Refusal :=
  ifImplemented 0xD#4 s
    (match popStack s with
    | some (w, t) => .next (advance (t.setAcc w))
    | none => .refused .stackUnderflow)

/-- R141: `Fault(0xE)` where there is no stack, `UNDEFINED` on a full one (R143), else `Push(ACC)`. -/
def execPush (_ignored : Data) (s : State) : Host.Outcome State Fault Refusal :=
  ifImplemented 0xE#4 s
    (match pushStack s s.acc with
    | some t => .next (advance t)
    | none => .refused .stackOverflow)

end Sys2Proof.Machine
end

