-- ==== Sys2Proof/Machine/Dispatch.lean ====
section
/-! DEFINITION. The dispatch: one arm per constructor of `Instr`. -/

namespace Sys2Proof.Machine

def exec (i : Instr) (s : State) : Host.Outcome State Fault Refusal :=
  match i with
  | .halt d => Sys2Proof.Machine.execHalt d s
  | .reserved1 d => Sys2Proof.Machine.execReserved1 d s
  | .jump d => Sys2Proof.Machine.execJump d s
  | .jumpz d => Sys2Proof.Machine.execJumpz d s
  | .load d => Sys2Proof.Machine.execLoad d s
  | .store d => Sys2Proof.Machine.execStore d s
  | .lshft n g => Sys2Proof.Machine.execLshft n g s
  | .rshft n g => Sys2Proof.Machine.execRshft n g s
  | .xor d => Sys2Proof.Machine.execXor d s
  | .and d => Sys2Proof.Machine.execAnd d s
  | .sfull d => Sys2Proof.Machine.execSfull d s
  | .add d => Sys2Proof.Machine.execAdd d s
  | .reserved2 d => Sys2Proof.Machine.execReserved2 d s
  | .pop d => Sys2Proof.Machine.execPop d s
  | .push d => Sys2Proof.Machine.execPush d s
  | .noop d => Sys2Proof.Machine.execNoop d s

end Sys2Proof.Machine
end

