-- ==== Sys2Proof/Machine/Cycle.lean ====
section
/-! DEFINITION. The instruction cycle (10_state.md R39). -/

namespace Sys2Proof.Machine

/-- One step of the CPU (R39): fetch with `PC` unchanged, decode `IR`, execute. A halted CPU takes no step and changes
nothing (R203, D5); DESIGN CHOICE (log 8), safe: the model writes that as a next state equal to the state. -/
def cycle (s : State) : Host.Outcome State Fault Refusal :=
  if s.h then .next s
  else
    match fetch s with
    | .ok (w, t) => exec (decodeWord w) t
    | .error r => .refused r

end Sys2Proof.Machine
end

