-- ==== Sys2Proof/Machine/Step.lean ====
section
/-! DEFINITION. The step, and the placing of a word where the next step fetches. -/

namespace Sys2Proof.Machine

/-- One step of the machine (R39). -/
def step : State → Host.Outcome State Fault Refusal := cycle

/-- `s` with the instruction whose bits are `w` (those at and above `nbits` zero) where `step` fetches next (log 9). -/
def State.withFetchWord (s : State) (nbits w : Nat) : State :=
  placeWord s (BitVec.ofNat 16 (w % 2 ^ nbits))

end Sys2Proof.Machine
end

