-- ==== Sys2Proof/Safety.lean ====
section
/-! DEFINITION. The terms the statements use: which addresses are cells, which accesses have a meaning, the cases the spec
calls UNDEFINED, the parameters R5 and R153 allow, and the invariant of the machine. -/

namespace Sys2Proof.Machine

/-- `a` is a 16-bit cell of `MEMORY` with no side effect: `0x000` to `0x007` and `0x010` to `0xFFF` (R52), and the two
reserved addresses where the parameter of D15 makes them cells. -/
abbrev IsCell (s : State) (a : Addr) : Prop :=
  a.toNat < 8 ∨ 16 ≤ a.toNat ∨ (14 ≤ a.toNat ∧ s.cfg.reservedCells = .ram)

/-- An access to `a` has a meaning: `a` is not a reserved address, or the implementation has cells there (R31, D15). -/
abbrev Accessible (s : State) (a : Addr) : Prop :=
  (a = 0x00E#12 ∨ a = 0x00F#12) → s.cfg.reservedCells = .ram

/-- The word two bytes of memory stand for, as a number: what a cell at `a` holds. -/
def cellNumber (m : Memory) (a : Addr) : Nat :=
  (m.readByte (byteAddress a)).toNat + 256 * (m.readByte (byteAddress a + 1)).toNat

/-- Executing `i` in `s` is one of the cases R207 lists as `UNDEFINED`. An access or a stack operation of an instruction
that is not implemented does not happen: it faults instead (R152). -/
def UndefinedCase (i : Instr) (s : State) : Prop :=
  match i with
  | .load a => implemented s.cfg 0x4#4 = true ∧ ¬ Accessible s a
  | .store a => implemented s.cfg 0x5#4 = true ∧ ¬ Accessible s a
  | .sfull a => implemented s.cfg 0xA#4 = true ∧ ¬ Accessible s a
  | .reserved1 _ => s.cfg.reserved1Faults = false
  | .reserved2 _ => s.cfg.reserved2Faults = false
  | .pop _ => 0 < s.cfg.stackDepth ∧ s.stack = []
  | .push _ => 0 < s.cfg.stackDepth ∧ s.cfg.stackDepth ≤ s.stack.length
  | .halt _ | .jump _ | .jumpz _ | .lshft _ _ | .rshft _ _ | .xor _ | .and _ | .add _ | .noop _ => False

/-- The parameters the spec allows: no stack or at least 16 items (R5, C8), and no instruction but `POP` and `PUSH`
left out (R153, D10). -/
abbrev LegalConfig (c : Config) : Prop :=
  (c.stackDepth = 0 ∨ 16 ≤ c.stackDepth) ∧ c.omitted = []

/-- The invariant of the machine: memory is in its canonical form and inside the address space, holds nothing at the
addresses of the registers and ports `0x008` to `0x00D`, and the stack holds at most `STACK_DEPTH` words (R32). -/
abbrev State.Inv (s : State) : Prop :=
  s.mem.wf ∧ s.mem.inSpace ∧ (∀ c ∈ s.mem, c.1 < 16 ∨ 28 ≤ c.1) ∧ s.stack.length ≤ s.cfg.stackDepth

/-- `f` applied to the next state of an outcome, if there is one. -/
def mapNext (f : State → State) (o : Host.Outcome State Fault Refusal) : Host.Outcome State Fault Refusal :=
  match o with
  | .next t => .next (f t)
  | .fault r => .fault r
  | .refused r => .refused r

/-- A step is safe when it has a next state: the machine has a meaning for it. -/
def StepSafe (s : State) : Prop := ∃ t, step s = .next t

end Sys2Proof.Machine
end

