-- ==== Sys2Proof/Certificates/Slice0/Obligations.lean ====
section
/-! DEFINITION. The statements about SMA16, from the numbered rules of spec/. Each docstring names the rule it formalises,
and where a clause rests on one of the spec's own decisions (D<n>) or on a log entry, says so. -/

open Sys2Proof Sys2Proof.Machine

/-! ### Words and encoding (00_scope.md, 30_encoding.md) -/

/-- R8: DATA is the remainder and INST the quotient by 4096, bit 0 is the least significant bit, `IR.DATA<1:>` is half the
operand and `IR.DATA<0>` its lowest bit. -/
def Obligations.SegmentsAreQuotientAndRemainder : Prop :=
  ∀ w : Word,
    (dataOf w).toNat = w.toNat % 4096 ∧
    (instOf w).toNat = w.toNat / 4096 ∧
    w.toNat = (instOf w).toNat * 4096 + (dataOf w).toNat ∧
    (∀ k, w.getLsbD k = decide (w.toNat / 2 ^ k % 2 = 1)) ∧
    shiftCount (dataOf w) = (dataOf w).toNat / 2 ∧
    (shiftSegment (dataOf w) = .data ↔ (dataOf w).toNat % 2 = 1)

/-- R84 with R81 and R83: the row each word stands for, by its first hexadecimal digit, and its operand. -/
def Obligations.EveryWordDecodesToItsRow : Prop :=
  ∀ (op : Nat) (operand : Nat), op < 16 → operand < 4096 →
    let w : Word := BitVec.ofNat 16 (op * 4096 + operand)
    let d : Data := BitVec.ofNat 12 operand
    let g : Segment := if operand % 2 = 1 then .data else .whole
    (op = 0x0 → decodeWord w = .halt d) ∧
    (op = 0x1 → decodeWord w = .reserved1 d) ∧
    (op = 0x2 → decodeWord w = .jump d) ∧
    (op = 0x3 → decodeWord w = .jumpz d) ∧
    (op = 0x4 → decodeWord w = .load d) ∧
    (op = 0x5 → decodeWord w = .store d) ∧
    (op = 0x6 → decodeWord w = .lshft (operand / 2) g) ∧
    (op = 0x7 → decodeWord w = .rshft (operand / 2) g) ∧
    (op = 0x8 → decodeWord w = .xor d) ∧
    (op = 0x9 → decodeWord w = .and d) ∧
    (op = 0xA → decodeWord w = .sfull d) ∧
    (op = 0xB → decodeWord w = .add d) ∧
    (op = 0xC → decodeWord w = .reserved2 d) ∧
    (op = 0xD → decodeWord w = .pop d) ∧
    (op = 0xE → decodeWord w = .push d) ∧
    (op = 0xF → decodeWord w = .noop d)

/-- Decoding what is encoded: for every well-formed instruction with every operand, both as a word and as bytes. -/
def Obligations.DecodeOfEncodeIsTheInstruction : Prop :=
  ∀ (i : Instr) (rest : List Byte), i.wellFormed = true →
    decodeWord (encode i) = i ∧ decode (encodeBytes i ++ rest) = .ok (i, rest)

/-- Encoding what is decoded: every word has one meaning, which is well-formed and encodes to that word. -/
def Obligations.EncodeOfDecodeIsTheWord : Prop :=
  ∀ w : Word, (decodeWord w).wellFormed = true ∧ encode (decodeWord w) = w

/-- Words written out from the encodings of the instruction rules, one for each row of the opcode table. -/
def Obligations.WrittenOutWordsDecode : Prop :=
  decodeWord 0b0000101010111100#16 = .halt 0xABC#12 ∧
  decodeWord 0b0001101010111100#16 = .reserved1 0xABC#12 ∧
  decodeWord 0b0010000000010000#16 = .jump 0x010#12 ∧
  decodeWord 0b0011000000010100#16 = .jumpz 0x014#12 ∧
  decodeWord 0b0100000000100000#16 = .load 0x020#12 ∧
  decodeWord 0b0101000000010011#16 = .store 0x013#12 ∧
  decodeWord 0b0110000000001001#16 = .lshft 4 .data ∧
  decodeWord 0b0111000000011000#16 = .rshft 12 .whole ∧
  decodeWord 0b1000000011111111#16 = .xor 0x0FF#12 ∧
  decodeWord 0b1001000000001111#16 = .and 0x00F#12 ∧
  decodeWord 0b1010000000100001#16 = .sfull 0x021#12 ∧
  decodeWord 0b1011111111111111#16 = .add 0xFFF#12 ∧
  decodeWord 0b1100000000000000#16 = .reserved2 0x000#12 ∧
  decodeWord 0b1101000000000000#16 = .pop 0x000#12 ∧
  decodeWord 0b1110000100100011#16 = .push 0x123#12 ∧
  decodeWord 0b1111111111111111#16 = .noop 0xFFF#12

/-- R85: `HALT`, `POP`, `PUSH`, `NOOP` and the reserved opcodes behave the same whatever their operand. -/
def Obligations.IgnoredOperandsHaveNoEffect : Prop :=
  ∀ (d e : Data) (s : State),
    exec (.halt d) s = exec (.halt e) s ∧
    exec (.pop d) s = exec (.pop e) s ∧
    exec (.push d) s = exec (.push e) s ∧
    exec (.noop d) s = exec (.noop e) s ∧
    exec (.reserved1 d) s = exec (.reserved1 e) s ∧
    exec (.reserved2 d) s = exec (.reserved2 e) s

/-! ### The step (10_state.md R39) -/

/-- R39: where `PC` names a cell, the two bytes there decode to an instruction, and the step is that instruction's `exec`,
with `IR` holding its word and `PC` unchanged by the fetch. The byte order is the model's own (log 5). -/
def Obligations.StepRunsDecodedInstruction : Prop :=
  ∀ (s : State) (i : Instr), s.h = false → IsCell s s.pc → i.wellFormed = true →
    decode [s.mem.readByte (byteAddress s.pc), s.mem.readByte (byteAddress s.pc + 1)] = .ok (i, []) →
    step s = exec i { s with ir := encode i }

/-- R39: the fetch reads through `MemRead` at every address, registers and ports included; where that is refused, so is the
step. -/
def Obligations.StepFetchesThroughMemRead : Prop :=
  ∀ s : State, s.h = false →
    (∀ w t, memRead s s.pc = .ok (w, t) → step s = exec (decodeWord w) { t with ir := w }) ∧
    (∀ r, memRead s s.pc = .error r → step s = .refused r)

/-- R203 (D5): a halted machine keeps everything, however many steps one asks for. That a halted CPU's "no step" is a next
state equal to the state is the model's choice (log 8). -/
def Obligations.HaltedMachineKeepsEverything : Prop :=
  ∀ (s : State) (k : Nat), s.h = true → Host.Core.run core k s = .next s

/-- R21: `next(PC)` adds one, modulo 4096 (the wrap is D2). -/
def Obligations.NextPcWrapsAtTheTop : Prop :=
  ∀ a : Addr, (nextPc a).toNat = (a.toNat + 1) % 4096

/-- R207: a running machine's step has a next state exactly where it meets none of the cases the spec calls UNDEFINED: a
fetch from a reserved address, or an UNDEFINED case of the word it fetches. That these cases have no effect is the spec's
decision: D9 (the stack's limits), D11 (reserved opcodes), D15 (reserved addresses). A `PUSH` on a stack longer than
`STACK_DEPTH`, a state R32 rules out, counts as `UNDEFINED` by the model's choice (log 15). -/
def Obligations.StepIsDefinedExactlyOutsideUndefinedCases : Prop :=
  ∀ s : State, s.h = false →
    (StepSafe s ↔
      Accessible s s.pc ∧ ∀ w t, memRead s s.pc = .ok (w, t) → ¬ UndefinedCase (decodeWord w) s)

/-! ### Memory (20_memory.md) -/

/-- R56: what a read gives, address by address. A port's value is free (D16, log 7), the INST segment of `0x009` reads as
zero (D14), and a reserved address is refused unless the implementation has cells there (D15). -/
def Obligations.MemReadByAddress : Prop :=
  ∀ (s : State) (a : Addr),
    (IsCell s a → memRead s a = .ok (BitVec.ofNat 16 (cellNumber s.mem a), s)) ∧
    (a = 0x008#12 → memRead s a = .ok (s.interruptReason, s)) ∧
    (a = 0x009#12 → memRead s a = .ok (BitVec.ofNat 16 s.interruptReturn.toNat, s)) ∧
    (a = 0x00A#12 ∨ a = 0x00B#12 →
      memRead s a = .ok (Config.freeWord s.portReads, { s with portReads := s.portReads + 1 })) ∧
    (a = 0x00C#12 → memRead s a = .ok (s.terminalConfig, s)) ∧
    (a = 0x00D#12 → memRead s a = .ok (s.stackSize, s)) ∧
    (a = 0x00E#12 ∨ a = 0x00F#12 → s.cfg.reservedCells = .refuse →
      memRead s a = .error (.reservedAddress a))

/-- R57: what a whole-word write does, address by address. -/
def Obligations.WholeWordWriteByAddress : Prop :=
  ∀ (s : State) (a : Addr) (v : Word),
    (IsCell s a → ∃ t, memWrite16 s a v = .ok t ∧ t = { s with mem := t.mem } ∧
      cellNumber t.mem a = v.toNat ∧
      ∀ b, b ≠ byteAddress a → b ≠ byteAddress a + 1 → t.mem.readByte b = s.mem.readByte b) ∧
    (a = 0x008#12 → memWrite16 s a v = .ok { s with interruptReason := v }) ∧
    (a = 0x009#12 → memWrite16 s a v = .ok { s with interruptReturn := BitVec.ofNat 12 (v.toNat % 4096) }) ∧
    (a = 0x00A#12 → memWrite16 s a v = .ok (asciiPort s (dataOf v))) ∧
    (a = 0x00B#12 → memWrite16 s a v = .ok (smallPort s (dataOf v))) ∧
    (a = 0x00C#12 → memWrite16 s a v = .ok { s with terminalConfig := v }) ∧
    (a = 0x00D#12 → memWrite16 s a v = .ok { s with stackSize := v }) ∧
    (a = 0x00E#12 ∨ a = 0x00F#12 → s.cfg.reservedCells = .refuse →
      memWrite16 s a v = .error (.reservedAddress a))

/-- R58: what a DATA-segment write does, address by address: the INST segment of a cell is kept. -/
def Obligations.DataWriteByAddress : Prop :=
  ∀ (s : State) (a : Addr) (v : Data),
    (IsCell s a → ∃ t, memWrite12 s a v = .ok t ∧ t = { s with mem := t.mem } ∧
      cellNumber t.mem a = cellNumber s.mem a / 4096 * 4096 + v.toNat ∧
      ∀ b, b ≠ byteAddress a → b ≠ byteAddress a + 1 → t.mem.readByte b = s.mem.readByte b) ∧
    (a = 0x008#12 → memWrite12 s a v = .ok
      { s with interruptReason := BitVec.ofNat 16 (s.interruptReason.toNat / 4096 * 4096 + v.toNat) }) ∧
    (a = 0x009#12 → memWrite12 s a v = .ok { s with interruptReturn := v }) ∧
    (a = 0x00A#12 → memWrite12 s a v = .ok (asciiPort s v)) ∧
    (a = 0x00B#12 → memWrite12 s a v = .ok (smallPort s v)) ∧
    (a = 0x00C#12 → memWrite12 s a v = .ok
      { s with terminalConfig := BitVec.ofNat 16 (s.terminalConfig.toNat / 4096 * 4096 + v.toNat) }) ∧
    (a = 0x00D#12 → memWrite12 s a v = .ok
      { s with stackSize := BitVec.ofNat 16 (s.stackSize.toNat / 4096 * 4096 + v.toNat) }) ∧
    (a = 0x00E#12 ∨ a = 0x00F#12 → s.cfg.reservedCells = .refuse →
      memWrite12 s a v = .error (.reservedAddress a))

/-- R57 with R56: a whole-word write at one address leaves the value read at every other address as it was.
For the console ports that is the model's choice and not the spec's (log 7): R56 lets each read of a port give any value;
in the model a read gives the free value the counter `portReads` names, and a write does not advance the counter. -/
def Obligations.WriteLeavesOtherAddresses : Prop :=
  ∀ (s t : State) (a b : Addr) (v : Word), memWrite16 s a v = .ok t → a ≠ b →
    (memRead t b).map Prod.fst = (memRead s b).map Prod.fst

/-! ### Control instructions (40_control.md) -/

/-- R100: `HALT` sets `SR.H` and goes to `next(PC)` (the increment is D29), and changes nothing else. -/
def Obligations.HaltSetsTheHaltFlag : Prop :=
  ∀ (d : Data) (s : State), implemented s.cfg 0x0#4 = true →
    exec (.halt d) s = .next { s with h := true, pc := nextPc s.pc }

/-- R101: `JUMP`, words `0x2000` to `0x2FFF`, sets `PC` to its operand and changes nothing else. -/
def Obligations.JumpSetsThePc : Prop :=
  ∀ (d : Addr) (s : State), implemented s.cfg 0x2#4 = true →
    decodeWord (BitVec.ofNat 16 (0x2000 + d.toNat)) = .jump d ∧
    exec (.jump d) s = .next { s with pc := d }

/-- R102: `JUMPZ`, words `0x3000` to `0x3FFF`, goes to its operand where `SR.Z` is set and to `next(PC)` where it is clear
(C2; the wrap of `next` is D2), and changes nothing else. -/
def Obligations.JumpzFollowsTheZeroFlag : Prop :=
  ∀ (d : Addr) (s : State), implemented s.cfg 0x3#4 = true →
    decodeWord (BitVec.ofNat 16 (0x3000 + d.toNat)) = .jumpz d ∧
    (s.z = true → exec (.jumpz d) s = .next { s with pc := d }) ∧
    (s.z = false → exec (.jumpz d) s = .next { s with pc := nextPc s.pc })

/-- R103: `NOOP` goes to `next(PC)` and changes nothing else; at `0xFFF` that is `0x000` (D2). -/
def Obligations.NoopOnlyAdvances : Prop :=
  ∀ (d : Data) (s : State), implemented s.cfg 0xF#4 = true →
    exec (.noop d) s = .next { s with pc := BitVec.ofNat 12 ((s.pc.toNat + 1) % 4096) }

/-! ### Memory access instructions (41_memory_access.md) -/

/-- R110: `LOAD` sets `ACC` to `MemRead(d, 16)` and goes to `next(PC)`, at every address that has a meaning; besides these,
only the model's count of free values can change (log 7). -/
def Obligations.LoadReadsTheWord : Prop :=
  ∀ (d : Addr) (s : State), implemented s.cfg 0x4#4 = true → Accessible s d →
    ∃ w k t, memRead s d = .ok (w, t) ∧ t = { s with portReads := k } ∧
      exec (.load d) s = .next { s with acc := w, pc := nextPc s.pc, portReads := k }

/-- R111: `STORE` to a cell replaces its DATA segment by `ACC.DATA`, keeps its INST segment and every other byte, and
changes nothing else but `PC`. -/
def Obligations.StoreKeepsTheOpcodeOfACell : Prop :=
  ∀ (d : Addr) (s : State), implemented s.cfg 0x5#4 = true → IsCell s d →
    ∃ t, exec (.store d) s = .next t ∧ t = { s with mem := t.mem, pc := nextPc s.pc } ∧
      cellNumber t.mem d = cellNumber s.mem d / 4096 * 4096 + s.acc.toNat % 4096 ∧
      ∀ b, b ≠ byteAddress d → b ≠ byteAddress d + 1 → t.mem.readByte b = s.mem.readByte b

/-- R112: `SFULL` to a cell replaces the whole word by `ACC`, keeps every other byte, and changes nothing else but `PC`. -/
def Obligations.SfullReplacesTheWholeCell : Prop :=
  ∀ (d : Addr) (s : State), implemented s.cfg 0xA#4 = true → IsCell s d →
    ∃ t, exec (.sfull d) s = .next t ∧ t = { s with mem := t.mem, pc := nextPc s.pc } ∧
      cellNumber t.mem d = s.acc.toNat ∧
      ∀ b, b ≠ byteAddress d → b ≠ byteAddress d + 1 → t.mem.readByte b = s.mem.readByte b

/-- R27 to R30 with R57 and R58: `STORE` and `SFULL` write the memory-mapped registers like cells, with no other effect
(D13); `$INTERRUPT_RETURN` keeps 12 bits (D14). -/
def Obligations.StoresWriteTheMappedRegisters : Prop :=
  ∀ s : State,
    (implemented s.cfg 0xA#4 = true →
      exec (.sfull 0x008#12) s = .next { s with interruptReason := s.acc, pc := nextPc s.pc } ∧
      exec (.sfull 0x009#12) s =
        .next { s with interruptReturn := BitVec.ofNat 12 (s.acc.toNat % 4096), pc := nextPc s.pc } ∧
      exec (.sfull 0x00C#12) s = .next { s with terminalConfig := s.acc, pc := nextPc s.pc } ∧
      exec (.sfull 0x00D#12) s = .next { s with stackSize := s.acc, pc := nextPc s.pc }) ∧
    (implemented s.cfg 0x5#4 = true →
      exec (.store 0x008#12) s = .next { s with
        interruptReason := BitVec.ofNat 16 (s.interruptReason.toNat / 4096 * 4096 + s.acc.toNat % 4096),
        pc := nextPc s.pc } ∧
      exec (.store 0x009#12) s =
        .next { s with interruptReturn := BitVec.ofNat 12 (s.acc.toNat % 4096), pc := nextPc s.pc } ∧
      exec (.store 0x00C#12) s = .next { s with
        terminalConfig := BitVec.ofNat 16 (s.terminalConfig.toNat / 4096 * 4096 + s.acc.toNat % 4096),
        pc := nextPc s.pc } ∧
      exec (.store 0x00D#12) s = .next { s with
        stackSize := BitVec.ofNat 16 (s.stackSize.toNat / 4096 * 4096 + s.acc.toNat % 4096),
        pc := nextPc s.pc })

/-- R31 (D15): `LOAD`, `STORE`, `SFULL` and the fetch are refused at `0x00E` and `0x00F` on an implementation without cells
there. -/
def Obligations.ReservedAddressesAreRefused : Prop :=
  ∀ (d : Addr) (s : State), (d = 0x00E#12 ∨ d = 0x00F#12) → s.cfg.reservedCells = .refuse →
    (implemented s.cfg 0x4#4 = true → exec (.load d) s = .refused (.reservedAddress d)) ∧
    (implemented s.cfg 0x5#4 = true → exec (.store d) s = .refused (.reservedAddress d)) ∧
    (implemented s.cfg 0xA#4 = true → exec (.sfull d) s = .refused (.reservedAddress d)) ∧
    (s.h = false → step { s with pc := d } = .refused (.reservedAddress d))

/-- R65 (D23): the word `SFULL` or `STORE` puts at the next address is the one the next step executes. -/
def Obligations.StoredWordIsFetchedNext : Prop :=
  ∀ s : State, s.h = false → IsCell s (nextPc s.pc) →
    (implemented s.cfg 0xA#4 = true →
      ∃ t, exec (.sfull (nextPc s.pc)) s = .next t ∧ step t = exec (decodeWord s.acc) { t with ir := s.acc }) ∧
    (implemented s.cfg 0x5#4 = true →
      ∃ t w, exec (.store (nextPc s.pc)) s = .next t ∧
        w = BitVec.ofNat 16 (cellNumber s.mem (nextPc s.pc) / 4096 * 4096 + s.acc.toNat % 4096) ∧
        step t = exec (decodeWord w) { t with ir := w })

/-! ### Shift, logic and arithmetic instructions (42_alu.md) -/

/-- R120: `LSHFT`, as numbers (logical, confined to the segment, the count used whole: D7). No flag changes. -/
def Obligations.LeftShiftOfTheSelectedSegment : Prop :=
  ∀ (n : Nat) (s : State), implemented s.cfg 0x6#4 = true →
    exec (.lshft n .whole) s =
      .next { s with acc := BitVec.ofNat 16 (s.acc.toNat * 2 ^ n), pc := nextPc s.pc } ∧
    exec (.lshft n .data) s =
      .next { s with
        acc := BitVec.ofNat 16 (s.acc.toNat / 4096 * 4096 + s.acc.toNat % 4096 * 2 ^ n % 4096)
        pc := nextPc s.pc }

/-- R121: `RSHFT`, as numbers (logical, confined to the segment, the count used whole: D7). No flag changes. -/
def Obligations.RightShiftOfTheSelectedSegment : Prop :=
  ∀ (n : Nat) (s : State), implemented s.cfg 0x7#4 = true →
    exec (.rshft n .whole) s =
      .next { s with acc := BitVec.ofNat 16 (s.acc.toNat / 2 ^ n), pc := nextPc s.pc } ∧
    exec (.rshft n .data) s =
      .next { s with
        acc := BitVec.ofNat 16 (s.acc.toNat / 4096 * 4096 + s.acc.toNat % 4096 / 2 ^ n)
        pc := nextPc s.pc }

/-- R122: `XOR`, words `0x8000` to `0x8FFF`, acts bit by bit on the DATA segment, keeps the INST segment and every flag
(the wrap of `next` is D2). -/
def Obligations.XorActsOnTheDataSegment : Prop :=
  ∀ (d : Data) (s : State), implemented s.cfg 0x8#4 = true →
    decodeWord (BitVec.ofNat 16 (0x8000 + d.toNat)) = .xor d ∧
    ∃ w : Word, exec (.xor d) s = .next { s with acc := w, pc := nextPc s.pc } ∧
      (∀ k, k < 12 → w.getLsbD k = xor (s.acc.getLsbD k) (d.getLsbD k)) ∧
      (∀ k, 12 ≤ k → w.getLsbD k = s.acc.getLsbD k)

/-- R123: `AND`, words `0x9000` to `0x9FFF`, acts bit by bit on the DATA segment, keeps the INST segment and every flag
(the wrap of `next` is D2). -/
def Obligations.AndActsOnTheDataSegment : Prop :=
  ∀ (d : Data) (s : State), implemented s.cfg 0x9#4 = true →
    decodeWord (BitVec.ofNat 16 (0x9000 + d.toNat)) = .and d ∧
    ∃ w : Word, exec (.and d) s = .next { s with acc := w, pc := nextPc s.pc } ∧
      (∀ k, k < 12 → w.getLsbD k = (s.acc.getLsbD k && d.getLsbD k)) ∧
      (∀ k, 12 ≤ k → w.getLsbD k = s.acc.getLsbD k)

/-- R124: `ADD` is the sum modulo 2^16 with the operand zero-extended (D6), and `SR.Z` tells whether the DATA segment of the
sum is zero. -/
def Obligations.AddIsTheModularSum : Prop :=
  ∀ (d : Data) (s : State), implemented s.cfg 0xB#4 = true →
    exec (.add d) s = .next { s with
      acc := BitVec.ofNat 16 ((s.acc.toNat + d.toNat) % 65536)
      z := decide ((s.acc.toNat + d.toNat) % 4096 = 0)
      pc := nextPc s.pc }

/-- R125: on the DATA segment `ADD` is addition modulo 4096 whatever the INST segment holds, and the carry out of it goes
into the INST segment, modulo 16 (D6). -/
def Obligations.AddCarriesIntoTheInstSegment : Prop :=
  ∀ (d : Data) (s : State), implemented s.cfg 0xB#4 = true →
    ∃ t, exec (.add d) s = .next t ∧
      (dataOf t.acc).toNat = ((dataOf s.acc).toNat + d.toNat) % 4096 ∧
      (instOf t.acc).toNat =
        ((instOf s.acc).toNat + if 4096 ≤ (dataOf s.acc).toNat + d.toNat then 1 else 0) % 16

/-- R127 (c) to (f): the two's complement of the DATA segment, clearing the INST segment, moving it to the bottom, and
clearing `ACC` (on D6 and D7). -/
def Obligations.ShiftAndAddIdioms : Prop :=
  ∀ s : State, (∀ op, op = 0x6#4 ∨ op = 0x7#4 ∨ op = 0x8#4 ∨ op = 0xB#4 → implemented s.cfg op = true) →
    (∃ t u, exec (.xor 0xFFF#12) s = .next t ∧ exec (.add 0x001#12) t = .next u ∧
      (dataOf u.acc).toNat = (4096 - (dataOf s.acc).toNat) % 4096) ∧
    (∃ t u, exec (.lshft 4 .whole) s = .next t ∧ exec (.rshft 4 .whole) t = .next u ∧
      u.acc.toNat = s.acc.toNat % 4096) ∧
    (∃ t, exec (.rshft 12 .whole) s = .next t ∧ t.acc.toNat = s.acc.toNat / 4096) ∧
    (∃ t, exec (.lshft 16 .whole) s = .next t ∧ t.acc = 0x0000#16)

/-! ### Stack instructions (43_stack.md) -/

/-- R140: on a machine with a stack that holds a word, `POP` moves the top word, both segments, into `ACC`
(the top is the last word pushed: K1, log 41). -/
def Obligations.PopTakesTheTopWord : Prop :=
  ∀ (d : Data) (s : State) (l : List Word) (w : Word), 0 < s.cfg.stackDepth → s.stack = l ++ [w] →
    exec (.pop d) s = .next { s with acc := w, stack := l, pc := nextPc s.pc }

/-- R141: on a machine whose stack has room, `PUSH` puts `ACC`, both segments, on top of it (K1,
log 41). -/
def Obligations.PushPutsTheAccumulatorOnTop : Prop :=
  ∀ (d : Data) (s : State), s.stack.length < s.cfg.stackDepth →
    exec (.push d) s = .next { s with stack := s.stack ++ [s.acc], pc := nextPc s.pc }

/-- R143 (D9): `POP` on an empty stack and `PUSH` on a full one are refused, on a machine that has a stack. -/
def Obligations.StackLimitsAreRefused : Prop :=
  ∀ (d : Data) (s : State), 0 < s.cfg.stackDepth →
    (s.stack = [] → exec (.pop d) s = .refused .stackUnderflow) ∧
    (s.stack.length = s.cfg.stackDepth → exec (.push d) s = .refused .stackOverflow)

/-- R141, R142: a `PUSH` and the `POP` after it leave `ACC` and the stack as they were (last-in first-out is the spec's
general knowledge K1, log 41). -/
def Obligations.PopAfterPushRestores : Prop :=
  ∀ (d e : Data) (s : State), s.stack.length < s.cfg.stackDepth →
    ∃ t, exec (.push d) s = .next t ∧ exec (.pop e) t = .next { s with pc := nextPc (nextPc s.pc) }

/-- R32: `STACK` changes by one word at a time, and only by `POP` and `PUSH`; `POP` takes the word at the end where `PUSH`
put it (last-in first-out is the spec's general knowledge K1, log 41). -/
def Obligations.OnlyPopAndPushChangeTheStack : Prop :=
  ∀ (i : Instr) (s t : State), exec i s = .next t →
    t.stack = s.stack ∨
    ((∃ d, i = .pop d) ∧ s.stack = t.stack ++ [t.acc]) ∨
    ((∃ d, i = .push d) ∧ t.stack = s.stack ++ [s.acc])

/-! ### Reserved and unimplemented opcodes, and the fault (44_reserved.md, 60_exceptions.md) -/

/-- R150, R151, R162: on an implementation that faults on it, a reserved opcode records `next(PC)` and the reason `0x0FF1`
or `0x0FFC` and sets `PC` to `0x001`; nothing else changes (D27). On one that does not, it is refused (D11). -/
def Obligations.ReservedOpcodesFaultOrAreRefused : Prop :=
  ∀ (d : Data) (s : State),
    (s.cfg.reserved1Faults = true → exec (.reserved1 d) s = .next
      { s with interruptReturn := nextPc s.pc, interruptReason := 0x0FF1#16, pc := 0x001#12 }) ∧
    (s.cfg.reserved2Faults = true → exec (.reserved2 d) s = .next
      { s with interruptReturn := nextPc s.pc, interruptReason := 0x0FFC#16, pc := 0x001#12 }) ∧
    (s.cfg.reserved1Faults = false → exec (.reserved1 d) s = .refused (.reservedOpcode 0x1#4)) ∧
    (s.cfg.reserved2Faults = false → exec (.reserved2 d) s = .refused (.reservedOpcode 0xC#4))

/-- R152 (D12): any of the fourteen defined instructions that is not implemented has none of its own effects and takes
`Fault(op)`, with `op` its opcode, and nothing else (D27). That any of the fourteen may be left out is the model's general
table (log 12). -/
def Obligations.UnimplementedInstructionsFault : Prop :=
  ∀ (i : Instr) (s : State), opcodeOf i ≠ 0x1#4 → opcodeOf i ≠ 0xC#4 →
    implemented s.cfg (opcodeOf i) = false →
    exec i s = .next
      { s with
        interruptReturn := nextPc s.pc
        interruptReason := BitVec.ofNat 16 (0x0FF0 + (opcodeOf i).toNat)
        pc := 0x001#12 }

/-- R153 (D10): with the parameters the spec allows, `POP` and `PUSH` are implemented exactly when `STACK_DEPTH > 0`, and
every other opcode is. -/
def Obligations.LegalParametersImplementAllButTheStack : Prop :=
  ∀ (c : Config) (op : Opcode), LegalConfig c →
    (implemented c op = false ↔ c.stackDepth = 0 ∧ (op = 0xD#4 ∨ op = 0xE#4))

/-- R162: the fault entry is two ordinary writes, to `0x009` and `0x008`, and then the jump to the fault vector,
and no more (D27; the wrap of the return address is D2). -/
def Obligations.FaultEntryIsTwoWritesAndAJump : Prop :=
  ∀ (op : Opcode) (s : State),
    ∃ t u, memWrite16 s 0x009#12 (BitVec.ofNat 16 ((s.pc.toNat + 1) % 4096)) = .ok t ∧
      memWrite16 t 0x008#12 (BitVec.ofNat 16 (0x0FF0 + op.toNat)) = .ok u ∧
      raiseFault op s = { u with pc := 0x001#12 }

/-- R170: a second fault, taken by the word at the fault vector itself, overwrites both registers: the return address is
then `0x002` and the reason the second one's (D21). -/
def Obligations.NestedFaultOverwritesTheFirst : Prop :=
  ∀ (op op' : Opcode) (s : State),
    raiseFault op' (raiseFault op s) =
      { s with
        interruptReturn := 0x002#12
        interruptReason := BitVec.ofNat 16 (0x0FF0 + op'.toNat)
        pc := 0x001#12 }

/-- R169: a handler that copies `$INTERRUPT_RETURN` with `LOAD 0x009` and `STORE r` into a `JUMP` word at `r` has there a
jump to the instruction after the faulting one (that the register can be read so is D13, the address D4 and D12). -/
def Obligations.HandlerCanReturnFromAFault : Prop :=
  ∀ (op : Opcode) (s : State) (r x : Addr),
    implemented s.cfg 0x4#4 = true → implemented s.cfg 0x5#4 = true → implemented s.cfg 0x2#4 = true →
    IsCell s r → decodeWord (s.mem.readWord r) = .jump x →
    ∃ t u, exec (.load 0x009#12) (raiseFault op s) = .next t ∧ exec (.store r) t = .next u ∧
      decodeWord (u.mem.readWord r) = .jump (nextPc s.pc) ∧
      exec (.jump (nextPc s.pc)) u = .next { u with pc := nextPc s.pc }

/-- R161, R163 with R27 and R28: an instruction changes `$INTERRUPT_REASON` or `$INTERRUPT_RETURN` only by a store to that
register's address or by a fault, which records the instruction's own opcode and `next(PC)` (D4, D12; the wrap is D2). -/
def Obligations.FaultRegistersRecordTheFaultingOpcode : Prop :=
  ∀ (i : Instr) (s t : State), exec i s = .next t →
    (t.interruptReason = s.interruptReason ∧ t.interruptReturn = s.interruptReturn) ∨
    i = .store 0x008#12 ∨ i = .sfull 0x008#12 ∨ i = .store 0x009#12 ∨ i = .sfull 0x009#12 ∨
    (t.interruptReason.toNat = 0x0FF0 + (opcodeOf i).toNat ∧ t.interruptReturn = nextPc s.pc ∧ t.pc = 0x001#12)

/-! ### The console (60_exceptions.md) -/

/-- R175 (D16, D18): a `STORE` or `SFULL` to `@ASCII_OUT` sends the low eight bits of `ACC`, NULL included, where there is
a console (D30), and stores nothing. -/
def Obligations.AsciiPortSendsOneCharacter : Prop :=
  ∀ s : State, implemented s.cfg 0x5#4 = true → implemented s.cfg 0xA#4 = true →
    let o := if s.cfg.hasConsole then s.out ++ [BitVec.ofNat 8 (s.acc.toNat % 256)] else s.out
    exec (.store 0x00A#12) s = .next { s with out := o, pc := nextPc s.pc } ∧
    exec (.sfull 0x00A#12) s = .next { s with out := o, pc := nextPc s.pc }

/-- R176 (D17): a `STORE` or `SFULL` to `@SMALL_OUT` sends the characters of the two 6-bit codes of `ACC.DATA`, the order as
the parameter says, NULL omitted, where there is a console (D30), and stores nothing. -/
def Obligations.SmallPortSendsTwoCodes : Prop :=
  ∀ s : State, implemented s.cfg 0x5#4 = true → implemented s.cfg 0xA#4 = true →
    let high : BitVec 6 := BitVec.ofNat 6 (s.acc.toNat % 4096 / 64)
    let low : BitVec 6 := BitVec.ofNat 6 (s.acc.toNat % 64)
    let codes := if s.cfg.smallHighFirst then [high, low] else [low, high]
    let o := if s.cfg.hasConsole then s.out ++ codes.filterMap smallAscii else s.out
    exec (.store 0x00B#12) s = .next { s with out := o, pc := nextPc s.pc } ∧
    exec (.sfull 0x00B#12) s = .next { s with out := o, pc := nextPc s.pc }

/-- R177: the SMALL table, all 64 codes (the ASCII numbers are general knowledge, K2, log 42). -/
def Obligations.SmallTable : Prop :=
  (List.range 64).map (fun c => smallAscii (BitVec.ofNat 6 c)) =
    [0x41#8, 0x42#8, 0x43#8, 0x44#8, 0x45#8, 0x46#8, 0x47#8, 0x48#8, 0x49#8, 0x4A#8, 0x4B#8, 0x4C#8, 0x4D#8,
      0x4E#8, 0x4F#8, 0x50#8].map some ++
    [0x51#8, 0x52#8, 0x53#8, 0x54#8, 0x55#8, 0x56#8, 0x57#8, 0x58#8, 0x59#8, 0x5A#8, 0x61#8, 0x62#8, 0x63#8,
      0x64#8, 0x65#8, 0x66#8].map some ++
    [0x67#8, 0x68#8, 0x69#8, 0x6A#8, 0x6B#8, 0x6C#8, 0x6D#8, 0x6E#8, 0x6F#8, 0x70#8, 0x71#8, 0x72#8, 0x73#8,
      0x74#8, 0x75#8, 0x76#8].map some ++
    [0x77#8, 0x78#8, 0x79#8, 0x7A#8, 0x30#8, 0x31#8, 0x32#8, 0x33#8, 0x34#8, 0x35#8, 0x36#8, 0x37#8, 0x38#8,
      0x39#8, 0x20#8].map some ++
    [none]

/-- R34: an instruction only appends to `OUT`, at most two characters, and only by a store to a console port. -/
def Obligations.OutputOnlyGrowsAndOnlyAtThePorts : Prop :=
  ∀ (i : Instr) (s t : State), exec i s = .next t →
    ∃ l : List Byte, t.out = s.out ++ l ∧ l.length ≤ 2 ∧
      (l ≠ [] → i = .store 0x00A#12 ∨ i = .store 0x00B#12 ∨ i = .sfull 0x00A#12 ∨ i = .sfull 0x00B#12)

/-! ### Reset (10_state.md R36, 70_reset_and_hazards.md) -/

/-- R36, R200, R30: reset, in whatever state, sets `PC`, both flags and `$STACK_SIZE` as the spec says, empties the stack
(D25) and the console (a modelling convention of R34), and leaves `$INTERRUPT_REASON` and `$INTERRUPT_RETURN` unwritten;
and the reset state is such a state (with the parameters of log 2). -/
def Obligations.ResetSetsTheStatedValues : Prop :=
  resetEvent State.reset = State.reset ∧ State.reset.stackSize = 0x0010#16 ∧
  ∀ s : State,
    (resetEvent s).pc = 0x000#12 ∧ (resetEvent s).h = false ∧ (resetEvent s).z = false ∧
    (resetEvent s).stackSize.toNat = min s.cfg.stackDepth 65535 ∧
    (resetEvent s).stack = [] ∧ (resetEvent s).out = [] ∧
    (resetEvent s).interruptReason = s.interruptReason ∧ (resetEvent s).interruptReturn = s.interruptReturn

/-! ### What holds of every instruction and every step -/

/-- The machine's invariant (memory in canonical form, inside the address space and apart from the mapped registers; the
stack within `STACK_DEPTH`, R32) is kept by every step, whatever it executes. -/
def Obligations.StepKeepsTheInvariant : Prop :=
  ∀ s t : State, s.Inv → step s = .next t → t.Inv

/-- The invariant holds at reset, and in every state that reset leaves. -/
def Obligations.ResetEstablishesTheInvariant : Prop :=
  State.reset.Inv ∧ ∀ s : State, s.Inv → (resetEvent s).Inv

/-- R35: the implementation parameters are constants of a run: no step changes them (that they stand in the state is the
model's choice, log 1). -/
def Obligations.StepKeepsTheParameters : Prop :=
  ∀ s t : State, step s = .next t → t.cfg = s.cfg

/-- R25, R126: a step leaves `SR.H` set exactly where it was set or the step executed an implemented `HALT`; the fault entry
does not change it, and reset clears it. -/
def Obligations.OnlyHaltSetsTheHaltFlag : Prop :=
  ∀ s t : State, step s = .next t →
    (t.h = true ↔ s.h = true ∨
      (∃ w u d, memRead s s.pc = .ok (w, u) ∧ decodeWord w = .halt d ∧ implemented s.cfg 0x0#4 = true)) ∧
    (∀ op, (raiseFault op s).h = s.h) ∧ (resetEvent s).h = false

/-- R26, R126 (D8): only `ADD` writes `SR.Z`; after an implemented `ADD` it tells whether the DATA segment of the new `ACC`
is zero. -/
def Obligations.OnlyAddWritesTheZeroFlag : Prop :=
  ∀ (i : Instr) (s t : State), exec i s = .next t →
    ((∃ d, i = .add d) ∧ implemented s.cfg 0xB#4 = true → (t.z = true ↔ t.acc.toNat % 4096 = 0)) ∧
    (¬ ((∃ d, i = .add d) ∧ implemented s.cfg 0xB#4 = true) → t.z = s.z)

/-- R29, R30 (D19, D31): `$TERMINAL_CONFIG` and `$STACK_SIZE` change nothing the machine does: an instruction that does not
address `0x00C` or `0x00D` does the same whatever these registers hold. -/
def Obligations.ConfigurationCellsInfluenceNothing : Prop :=
  ∀ (i : Instr) (s : State) (v w : Word),
    (∀ d, i = .load d ∨ i = .store d ∨ i = .sfull d → d ≠ 0x00C#12 ∧ d ≠ 0x00D#12) →
    exec i { s with terminalConfig := v, stackSize := w } =
      mapNext (fun t => { t with terminalConfig := v, stackSize := w }) (exec i s)

/-! ### Frames -/

/-- The frame of the control instructions `JUMP`, `JUMPZ`, `NOOP`, and of `HALT`, which besides `PC` changes `SR.H`. -/
def Obligations.FrameOfControlInstructions : Prop :=
  ∀ (d : Data) (i : Instr) (s t : State), i ∈ [.halt d, .jump d, .jumpz d, .noop d] →
    implemented s.cfg (opcodeOf i) = true → exec i s = .next t →
    t.acc = s.acc ∧ t.ir = s.ir ∧ t.z = s.z ∧ (i ≠ .halt d → t.h = s.h) ∧
    t.interruptReason = s.interruptReason ∧ t.interruptReturn = s.interruptReturn ∧
    t.terminalConfig = s.terminalConfig ∧ t.stackSize = s.stackSize ∧
    t.stack = s.stack ∧ t.out = s.out ∧ t.cfg = s.cfg ∧ t.portReads = s.portReads ∧
    ∀ b, t.mem.readByte b = s.mem.readByte b

/-- The frame of the instructions that write `ACC` and no memory: `LSHFT`, `RSHFT`, `XOR`, `AND`, `LOAD`, and `ADD`, which
also writes `SR.Z`; a `LOAD` of a console port takes a free value (log 7). -/
def Obligations.FrameOfAccumulatorInstructions : Prop :=
  ∀ (d : Data) (n : Nat) (g : Segment) (i : Instr) (s t : State),
    i ∈ [.lshft n g, .rshft n g, .xor d, .and d, .add d, .load d] →
    implemented s.cfg (opcodeOf i) = true → exec i s = .next t →
    t.pc = nextPc s.pc ∧ t.ir = s.ir ∧ t.h = s.h ∧ (i ≠ .add d → t.z = s.z) ∧
    t.interruptReason = s.interruptReason ∧ t.interruptReturn = s.interruptReturn ∧
    t.terminalConfig = s.terminalConfig ∧ t.stackSize = s.stackSize ∧
    t.stack = s.stack ∧ t.out = s.out ∧ t.cfg = s.cfg ∧
    (i ≠ .load 0x00A#12 → i ≠ .load 0x00B#12 → t.portReads = s.portReads) ∧
    ∀ b, t.mem.readByte b = s.mem.readByte b

/-- The frame of `POP`, which writes `ACC` and the stack, and of `PUSH`, which writes the stack. -/
def Obligations.FrameOfStackInstructions : Prop :=
  ∀ (d : Data) (i : Instr) (s t : State), i ∈ [.pop d, .push d] →
    implemented s.cfg (opcodeOf i) = true → exec i s = .next t →
    t.pc = nextPc s.pc ∧ (i = .push d → t.acc = s.acc) ∧ t.ir = s.ir ∧ t.h = s.h ∧ t.z = s.z ∧
    t.interruptReason = s.interruptReason ∧ t.interruptReturn = s.interruptReturn ∧
    t.terminalConfig = s.terminalConfig ∧ t.stackSize = s.stackSize ∧
    t.out = s.out ∧ t.cfg = s.cfg ∧ t.portReads = s.portReads ∧
    ∀ b, t.mem.readByte b = s.mem.readByte b

/-- The frame of `STORE` and `SFULL`: only what the addressed location is can change. The stored bytes are the two of the
word at the operand, `byteAddress d` and the one after it, and only where the operand names a cell. -/
def Obligations.FrameOfStoringInstructions : Prop :=
  ∀ (d : Addr) (i : Instr) (s t : State), i ∈ [.store d, .sfull d] →
    implemented s.cfg (opcodeOf i) = true → exec i s = .next t →
    t.pc = nextPc s.pc ∧ t.acc = s.acc ∧ t.ir = s.ir ∧ t.h = s.h ∧ t.z = s.z ∧
    t.stack = s.stack ∧ t.cfg = s.cfg ∧ t.portReads = s.portReads ∧
    (d ≠ 0x008#12 → t.interruptReason = s.interruptReason) ∧
    (d ≠ 0x009#12 → t.interruptReturn = s.interruptReturn) ∧
    (d ≠ 0x00A#12 → d ≠ 0x00B#12 → t.out = s.out) ∧
    (d ≠ 0x00C#12 → t.terminalConfig = s.terminalConfig) ∧
    (d ≠ 0x00D#12 → t.stackSize = s.stackSize) ∧
    (∀ b, b ≠ byteAddress d → b ≠ byteAddress d + 1 → t.mem.readByte b = s.mem.readByte b) ∧
    (¬ IsCell s d → ∀ b, t.mem.readByte b = s.mem.readByte b)

/-- The frame of an instruction that faults, reserved or not implemented (R162, R164): besides the two registers and `PC`
nothing changes. -/
def Obligations.FrameOfFaultingInstructions : Prop :=
  ∀ (i : Instr) (s t : State),
    (opcodeOf i = 0x1#4 ∨ opcodeOf i = 0xC#4 ∨ implemented s.cfg (opcodeOf i) = false) →
    exec i s = .next t →
    t.acc = s.acc ∧ t.ir = s.ir ∧ t.h = s.h ∧ t.z = s.z ∧
    t.terminalConfig = s.terminalConfig ∧ t.stackSize = s.stackSize ∧
    t.stack = s.stack ∧ t.out = s.out ∧ t.cfg = s.cfg ∧ t.portReads = s.portReads ∧
    ∀ b, t.mem.readByte b = s.mem.readByte b
end

