-- ==== Sys2Proof/Laws/Decode.lean ====
section
/-! SUPPORT. What the bit-field and byte-order helpers compute, as numbers: one lemma per helper. -/

namespace Sys2Proof

theorem toNat_append_eq {n m : Nat} (x : BitVec n) (y : BitVec m) :
    (x ++ y).toNat = x.toNat * 2 ^ m + y.toNat := by
  rw [BitVec.toNat_append, ← Nat.shiftLeft_add_eq_or_of_lt y.isLt, Nat.shiftLeft_eq]

theorem toNat_extractLsb'_eq {n : Nat} (x : BitVec n) (start len : Nat) :
    (x.extractLsb' start len).toNat = x.toNat / 2 ^ start % 2 ^ len := by
  simp [BitVec.extractLsb'_toNat, Nat.shiftRight_eq_div_pow]

@[simp] theorem instOf_toNat (w : Word) : (instOf w).toNat = w.toNat / 4096 := by
  rw [instOf, toNat_extractLsb'_eq]
  have := w.isLt
  omega

@[simp] theorem dataOf_toNat (w : Word) : (dataOf w).toNat = w.toNat % 4096 := by
  rw [dataOf, toNat_extractLsb'_eq]
  omega

@[simp] theorem joinSegments_toNat (inst : Opcode) (data : Data) :
    (joinSegments inst data).toNat = inst.toNat * 4096 + data.toNat := by
  rw [joinSegments, toNat_append_eq]
  norm_num

@[simp] theorem zextData_toNat (d : Data) : (zextData d).toNat = d.toNat := by
  simp [zextData]

@[simp] theorem lowByte_toNat (w : Word) : (lowByte w).toNat = w.toNat % 256 := by
  rw [lowByte, toNat_extractLsb'_eq]
  omega

@[simp] theorem highByte_toNat (w : Word) : (highByte w).toNat = w.toNat / 256 := by
  rw [highByte, toNat_extractLsb'_eq]
  have := w.isLt
  omega

@[simp] theorem wordOfBytes_toNat (low high : Byte) :
    (wordOfBytes low high).toNat = high.toNat * 256 + low.toNat := by
  rw [wordOfBytes, toNat_append_eq]
  norm_num

@[simp] theorem shiftCount_eq (d : Data) : shiftCount d = d.toNat / 2 := by
  rw [shiftCount, toNat_extractLsb'_eq]
  have := d.isLt
  omega

theorem shiftSegment_eq (d : Data) :
    shiftSegment d = if d.toNat % 2 = 1 then .data else .whole := by
  simp [shiftSegment, BitVec.getLsbD, Nat.testBit_zero]

theorem shiftOperand_toNat (n : Nat) (g : Segment) :
    (shiftOperand n g).toNat = n % 2048 * 2 + g.bit.toNat := by
  rw [shiftOperand, toNat_append_eq, BitVec.toNat_ofNat]
  norm_num

@[simp] theorem instOf_joinSegments (inst : Opcode) (data : Data) : instOf (joinSegments inst data) = inst := by
  apply BitVec.eq_of_toNat_eq
  have h := data.isLt
  simp only [instOf_toNat, joinSegments_toNat]
  omega

@[simp] theorem dataOf_joinSegments (inst : Opcode) (data : Data) : dataOf (joinSegments inst data) = data := by
  apply BitVec.eq_of_toNat_eq
  have h := data.isLt
  simp only [dataOf_toNat, joinSegments_toNat]
  omega

@[simp] theorem joinSegments_segments (w : Word) : joinSegments (instOf w) (dataOf w) = w := by
  apply BitVec.eq_of_toNat_eq
  simp only [instOf_toNat, dataOf_toNat, joinSegments_toNat]
  omega

@[simp] theorem wordOfBytes_bytes (w : Word) : wordOfBytes (lowByte w) (highByte w) = w := by
  apply BitVec.eq_of_toNat_eq
  simp only [wordOfBytes_toNat, lowByte_toNat, highByte_toNat]
  omega

@[simp] theorem lowByte_wordOfBytes (low high : Byte) : lowByte (wordOfBytes low high) = low := by
  apply BitVec.eq_of_toNat_eq
  have := low.isLt
  simp only [wordOfBytes_toNat, lowByte_toNat]
  omega

@[simp] theorem highByte_wordOfBytes (low high : Byte) : highByte (wordOfBytes low high) = high := by
  apply BitVec.eq_of_toNat_eq
  have := low.isLt
  simp only [wordOfBytes_toNat, highByte_toNat]
  omega

end Sys2Proof
end

