-- ==== Sys2Proof/Laws/Memory.lean ====
section
/-! SUPPORT. Memory: a read after a write, and the canonical form, which every operation keeps. -/

namespace Sys2Proof.Machine

/-! ### Reads of the byte operations -/

theorem Memory.readByte_erase (m : Memory) (a b : Nat) :
    (m.erase a).readByte b = if a = b then Memory.unlisted else m.readByte b := by
  induction m with
  | nil => simp [Memory.erase, Memory.readByte]
  | cons c rest ih =>
    by_cases hca : c.1 = a
    · simp only [Memory.erase, if_pos hca, ih, Memory.readByte]
      subst hca
      split <;> simp_all
    · simp only [Memory.erase, if_neg hca, Memory.readByte, ih]
      by_cases hcb : c.1 = b
      · simp [hcb, show a ≠ b from fun e => hca (hcb.trans e.symm)]
      · simp [hcb]

/-- Reading after an insertion, where the address was not listed. -/
theorem Memory.readByte_insert (m : Memory) (a b : Nat) (v : Byte) (h : ∀ c ∈ m, c.1 ≠ a) :
    (m.insert a v).readByte b = if a = b then v else m.readByte b := by
  induction m with
  | nil => simp [Memory.insert, Memory.readByte]
  | cons c rest ih =>
    have hc : c.1 ≠ a := h c (by simp)
    have hr := ih fun d hd => h d (by simp [hd])
    simp only [Memory.insert]
    split
    · simp only [Memory.readByte]
    · simp only [Memory.readByte, hr]
      by_cases hcb : c.1 = b
      · simp [hcb, show a ≠ b from fun e => hc (hcb.trans e.symm)]
      · simp [hcb]

theorem Memory.mem_erase {m : Memory} {a : Nat} {c : Host.Cell} :
    c ∈ m.erase a ↔ c ∈ m ∧ c.1 ≠ a := by
  induction m with
  | nil => simp [Memory.erase]
  | cons d rest ih =>
    simp only [Memory.erase]
    split
    · simp only [ih, List.mem_cons]
      constructor
      · rintro ⟨h1, h2⟩; exact ⟨.inr h1, h2⟩
      · rintro ⟨rfl | h1, h2⟩
        · exact absurd ‹_› h2
        · exact ⟨h1, h2⟩
    · simp only [ih, List.mem_cons]
      constructor
      · rintro (rfl | ⟨h1, h2⟩)
        · exact ⟨.inl rfl, ‹_›⟩
        · exact ⟨.inr h1, h2⟩
      · rintro ⟨rfl | h1, h2⟩
        · exact .inl rfl
        · exact .inr ⟨h1, h2⟩

theorem Memory.mem_insert {m : Memory} {a : Nat} {v : Byte} {c : Host.Cell} :
    c ∈ m.insert a v ↔ c = (a, v) ∨ c ∈ m := by
  induction m with
  | nil => simp [Memory.insert]
  | cons d rest ih =>
    simp only [Memory.insert]
    split
    · simp
    · simp only [List.mem_cons, ih]; tauto

/-- Read after write, at any byte address, in any memory. -/
theorem Memory.readByte_writeByte (m : Memory) (a b : Nat) (v : Byte) :
    (m.writeByte a v).readByte b = if a = b then v else m.readByte b := by
  simp only [Memory.writeByte]
  split
  · rw [Memory.readByte_erase]
    split <;> simp_all
  · rw [Memory.readByte_insert _ _ _ _ fun c hc => (Memory.mem_erase.1 hc).2, Memory.readByte_erase]
    split <;> simp_all

/-- What a byte write lists: the old entries of other addresses, and the pair written. -/
theorem Memory.mem_writeByte {m : Memory} {a : Nat} {v : Byte} {c : Host.Cell} (h : c ∈ m.writeByte a v) :
    c ∈ m ∨ c = (a, v) := by
  simp only [Memory.writeByte] at h
  split at h
  · exact .inl (Memory.mem_erase.1 h).1
  · rcases Memory.mem_insert.1 h with h | h
    · exact .inr h
    · exact .inl (Memory.mem_erase.1 h).1

/-! ### The canonical form -/

theorem Memory.wf_erase {m : Memory} (h : m.wf) (a : Nat) : (m.erase a).wf := by
  refine ⟨?_, fun c hc => h.2 c (Memory.mem_erase.1 hc).1⟩
  have hp := h.1
  clear h
  induction m with
  | nil => simp [Memory.erase]
  | cons d rest ih =>
    rw [List.pairwise_cons] at hp
    simp only [Memory.erase]
    split
    · exact ih hp.2
    · exact List.pairwise_cons.2 ⟨fun c hc => hp.1 c (Memory.mem_erase.1 hc).1, ih hp.2⟩

theorem Memory.wf_insert {m : Memory} (h : m.wf) {a : Nat} {v : Byte} (hv : v ≠ Memory.unlisted)
    (ha : ∀ c ∈ m, c.1 ≠ a) : (m.insert a v).wf := by
  constructor
  · have hp := h.1
    clear h
    induction m with
    | nil => simp [Memory.insert]
    | cons d rest ih =>
      have hd := List.pairwise_cons.1 hp
      simp only [Memory.insert]
      split
      · next hlt =>
        refine List.pairwise_cons.2 ⟨fun c hc => ?_, hp⟩
        rcases List.mem_cons.1 hc with rfl | hc
        · exact hlt
        · exact Nat.lt_trans hlt (hd.1 c hc)
      · next hge =>
        refine List.pairwise_cons.2 ⟨fun c hc => ?_, ih (fun c hc => ha c (by simp [hc])) hd.2⟩
        rcases Memory.mem_insert.1 hc with rfl | hc
        · have := ha d (by simp)
          simp only
          omega
        · exact hd.1 c hc
  · intro c hc
    rcases Memory.mem_insert.1 hc with rfl | hc
    · exact hv
    · exact h.2 c hc

theorem Memory.wf_writeByte {m : Memory} (h : m.wf) (a : Nat) (v : Byte) : (m.writeByte a v).wf := by
  simp only [Memory.writeByte]
  split
  · exact Memory.wf_erase h a
  · next hv => exact Memory.wf_insert (Memory.wf_erase h a) hv fun c hc => (Memory.mem_erase.1 hc).2

/-- A word write keeps the canonical form. -/
theorem Memory.wf_writeWord {m : Memory} (h : m.wf) (a : Addr) (w : Word) : (m.writeWord a w).wf :=
  Memory.wf_writeByte (Memory.wf_writeByte h _ _) _ _

/-- What a word write lists: the old entries, and entries at the word's two byte addresses. -/
theorem Memory.mem_writeWord {m : Memory} {a : Addr} {w : Word} {c : Host.Cell} (h : c ∈ m.writeWord a w) :
    c ∈ m ∨ c.1 = byteAddress a ∨ c.1 = byteAddress a + 1 := by
  rcases Memory.mem_writeByte h with h | rfl
  · rcases Memory.mem_writeByte h with h | rfl
    · exact .inl h
    · exact .inr (.inl rfl)
  · exact .inr (.inr rfl)

/-- A word write stays inside the address space (R33). -/
theorem Memory.inSpace_writeWord {m : Memory} (h : m.inSpace) (a : Addr) (w : Word) :
    (m.writeWord a w).inSpace := by
  intro c hc
  have ha := a.isLt
  rcases Memory.mem_writeWord hc with hc | hc | hc
  · exact h c hc
  all_goals simp only [byteAddress] at hc; omega

theorem Memory.wf_nil : Memory.wf [] := by simp [Memory.wf]

/-! ### Words -/

theorem byteAddress_inj {a b : Addr} (h : byteAddress a = byteAddress b) : a = b := by
  simp only [byteAddress] at h
  exact BitVec.eq_of_toNat_eq (by omega)

/-- Every byte after a word write: the two bytes of the word, and every other byte as before. -/
theorem Memory.readByte_writeWord (m : Memory) (a : Addr) (w : Word) (b : Nat) :
    (m.writeWord a w).readByte b =
      if byteAddress a + 1 = b then highByte w
      else if byteAddress a = b then lowByte w
      else m.readByte b := by
  simp only [Memory.writeWord, Memory.readByte_writeByte]

/-- A word read after a word write gives the word written. -/
@[simp] theorem Memory.readWord_writeWord_same (m : Memory) (a : Addr) (w : Word) :
    (m.writeWord a w).readWord a = w := by
  simp [Memory.readWord, Memory.readByte_writeWord, wordOfBytes_bytes]

/-- A word write leaves every other word as it was. -/
theorem Memory.readWord_writeWord_other (m : Memory) {a b : Addr} (w : Word) (h : a ≠ b) :
    (m.writeWord a w).readWord b = m.readWord b := by
  have hn : a.toNat ≠ b.toNat := fun e => h (BitVec.eq_of_toNat_eq e)
  have h1 : byteAddress a + 1 ≠ byteAddress b := by simp only [byteAddress]; omega
  have h2 : byteAddress a ≠ byteAddress b := by simp only [byteAddress]; omega
  have h3 : byteAddress a + 1 ≠ byteAddress b + 1 := by simp only [byteAddress]; omega
  have h4 : byteAddress a ≠ byteAddress b + 1 := by simp only [byteAddress]; omega
  simp [Memory.readWord, Memory.readByte_writeWord, h1, h2, h4]

/-! ### The address map -/

/-- Every word address is of one kind (R52): a register or a port, a reserved address, or ordinary memory. -/
theorem regionOf_cases (a : Addr) :
    a = 0x008#12 ∨ a = 0x009#12 ∨ a = 0x00A#12 ∨ a = 0x00B#12 ∨ a = 0x00C#12 ∨ a = 0x00D#12 ∨
    (regionOf a = .reserved ∧ (a = 0x00E#12 ∨ a = 0x00F#12) ∧ 14 ≤ a.toNat) ∨
    (regionOf a = .ordinary ∧ (a.toNat < 8 ∨ 16 ≤ a.toNat)) := by
  by_cases h : a.toNat < 8 ∨ 16 ≤ a.toNat
  · refine .inr (.inr (.inr (.inr (.inr (.inr (.inr ⟨?_, h⟩))))))
    simp only [regionOf, BitVec.toNat_eq, BitVec.toNat_ofNat]
    repeat' split
    all_goals first | rfl | omega
  · have : a.toNat = 8 ∨ a.toNat = 9 ∨ a.toNat = 10 ∨ a.toNat = 11 ∨ a.toNat = 12 ∨ a.toNat = 13 ∨
        a.toNat = 14 ∨ a.toNat = 15 := by omega
    have eq (k : Nat) (hk : k < 4096) (e : a.toNat = k) : a = BitVec.ofNat 12 k :=
      BitVec.eq_of_toNat_eq (by rw [e, BitVec.toNat_ofNat, Nat.mod_eq_of_lt hk])
    rcases this with e | e | e | e | e | e | e | e
    all_goals
      obtain rfl := eq _ (by decide) e
      decide

theorem regionOf_ordinary_iff (a : Addr) : regionOf a = .ordinary ↔ a.toNat < 8 ∨ 16 ≤ a.toNat := by
  rcases regionOf_cases a with h | h | h | h | h | h | ⟨h, h', h''⟩ | ⟨h, h'⟩
  case inr.inr.inr.inr.inr.inr.inr => simp [h, h']
  case inr.inr.inr.inr.inr.inr.inl =>
    rcases h' with rfl | rfl <;> decide
  all_goals subst h; decide

theorem regionOf_reserved_iff (a : Addr) : regionOf a = .reserved ↔ a = 0x00E#12 ∨ a = 0x00F#12 := by
  rcases regionOf_cases a with h | h | h | h | h | h | ⟨h, h', h''⟩ | ⟨h, h'⟩
  case inr.inr.inr.inr.inr.inr.inr =>
    simp only [h, reduceCtorEq, false_iff, not_or]
    constructor <;> rintro rfl <;> revert h' <;> decide
  case inr.inr.inr.inr.inr.inr.inl => simp [h, h']
  all_goals subst h; decide

end Sys2Proof.Machine
end

