-- ==== Sys2Proof/Laws/State.lean ====
section
/-! SUPPORT. Every field after every update of the state, once, by `rfl`. -/

namespace Sys2Proof.Machine

variable (s : State)

/-! ### `setPc` -/

@[simp] theorem State.setPc_pc (a : Addr) : (s.setPc a).pc = a := rfl
@[simp] theorem State.setPc_ir (a : Addr) : (s.setPc a).ir = s.ir := rfl
@[simp] theorem State.setPc_acc (a : Addr) : (s.setPc a).acc = s.acc := rfl
@[simp] theorem State.setPc_h (a : Addr) : (s.setPc a).h = s.h := rfl
@[simp] theorem State.setPc_z (a : Addr) : (s.setPc a).z = s.z := rfl
@[simp] theorem State.setPc_mem (a : Addr) : (s.setPc a).mem = s.mem := rfl
@[simp] theorem State.setPc_interruptReason (a : Addr) : (s.setPc a).interruptReason = s.interruptReason := rfl
@[simp] theorem State.setPc_interruptReturn (a : Addr) : (s.setPc a).interruptReturn = s.interruptReturn := rfl
@[simp] theorem State.setPc_terminalConfig (a : Addr) : (s.setPc a).terminalConfig = s.terminalConfig := rfl
@[simp] theorem State.setPc_stackSize (a : Addr) : (s.setPc a).stackSize = s.stackSize := rfl
@[simp] theorem State.setPc_stack (a : Addr) : (s.setPc a).stack = s.stack := rfl
@[simp] theorem State.setPc_out (a : Addr) : (s.setPc a).out = s.out := rfl
@[simp] theorem State.setPc_cfg (a : Addr) : (s.setPc a).cfg = s.cfg := rfl
@[simp] theorem State.setPc_portReads (a : Addr) : (s.setPc a).portReads = s.portReads := rfl

/-! ### `setIr` -/

@[simp] theorem State.setIr_pc (w : Word) : (s.setIr w).pc = s.pc := rfl
@[simp] theorem State.setIr_ir (w : Word) : (s.setIr w).ir = w := rfl
@[simp] theorem State.setIr_acc (w : Word) : (s.setIr w).acc = s.acc := rfl
@[simp] theorem State.setIr_h (w : Word) : (s.setIr w).h = s.h := rfl
@[simp] theorem State.setIr_z (w : Word) : (s.setIr w).z = s.z := rfl
@[simp] theorem State.setIr_mem (w : Word) : (s.setIr w).mem = s.mem := rfl
@[simp] theorem State.setIr_interruptReason (w : Word) : (s.setIr w).interruptReason = s.interruptReason := rfl
@[simp] theorem State.setIr_interruptReturn (w : Word) : (s.setIr w).interruptReturn = s.interruptReturn := rfl
@[simp] theorem State.setIr_terminalConfig (w : Word) : (s.setIr w).terminalConfig = s.terminalConfig := rfl
@[simp] theorem State.setIr_stackSize (w : Word) : (s.setIr w).stackSize = s.stackSize := rfl
@[simp] theorem State.setIr_stack (w : Word) : (s.setIr w).stack = s.stack := rfl
@[simp] theorem State.setIr_out (w : Word) : (s.setIr w).out = s.out := rfl
@[simp] theorem State.setIr_cfg (w : Word) : (s.setIr w).cfg = s.cfg := rfl
@[simp] theorem State.setIr_portReads (w : Word) : (s.setIr w).portReads = s.portReads := rfl

/-! ### `setAcc` -/

@[simp] theorem State.setAcc_pc (w : Word) : (s.setAcc w).pc = s.pc := rfl
@[simp] theorem State.setAcc_ir (w : Word) : (s.setAcc w).ir = s.ir := rfl
@[simp] theorem State.setAcc_acc (w : Word) : (s.setAcc w).acc = w := rfl
@[simp] theorem State.setAcc_h (w : Word) : (s.setAcc w).h = s.h := rfl
@[simp] theorem State.setAcc_z (w : Word) : (s.setAcc w).z = s.z := rfl
@[simp] theorem State.setAcc_mem (w : Word) : (s.setAcc w).mem = s.mem := rfl
@[simp] theorem State.setAcc_interruptReason (w : Word) : (s.setAcc w).interruptReason = s.interruptReason := rfl
@[simp] theorem State.setAcc_interruptReturn (w : Word) : (s.setAcc w).interruptReturn = s.interruptReturn := rfl
@[simp] theorem State.setAcc_terminalConfig (w : Word) : (s.setAcc w).terminalConfig = s.terminalConfig := rfl
@[simp] theorem State.setAcc_stackSize (w : Word) : (s.setAcc w).stackSize = s.stackSize := rfl
@[simp] theorem State.setAcc_stack (w : Word) : (s.setAcc w).stack = s.stack := rfl
@[simp] theorem State.setAcc_out (w : Word) : (s.setAcc w).out = s.out := rfl
@[simp] theorem State.setAcc_cfg (w : Word) : (s.setAcc w).cfg = s.cfg := rfl
@[simp] theorem State.setAcc_portReads (w : Word) : (s.setAcc w).portReads = s.portReads := rfl

/-! ### `setH` -/

@[simp] theorem State.setH_pc (b : Bool) : (s.setH b).pc = s.pc := rfl
@[simp] theorem State.setH_ir (b : Bool) : (s.setH b).ir = s.ir := rfl
@[simp] theorem State.setH_acc (b : Bool) : (s.setH b).acc = s.acc := rfl
@[simp] theorem State.setH_h (b : Bool) : (s.setH b).h = b := rfl
@[simp] theorem State.setH_z (b : Bool) : (s.setH b).z = s.z := rfl
@[simp] theorem State.setH_mem (b : Bool) : (s.setH b).mem = s.mem := rfl
@[simp] theorem State.setH_interruptReason (b : Bool) : (s.setH b).interruptReason = s.interruptReason := rfl
@[simp] theorem State.setH_interruptReturn (b : Bool) : (s.setH b).interruptReturn = s.interruptReturn := rfl
@[simp] theorem State.setH_terminalConfig (b : Bool) : (s.setH b).terminalConfig = s.terminalConfig := rfl
@[simp] theorem State.setH_stackSize (b : Bool) : (s.setH b).stackSize = s.stackSize := rfl
@[simp] theorem State.setH_stack (b : Bool) : (s.setH b).stack = s.stack := rfl
@[simp] theorem State.setH_out (b : Bool) : (s.setH b).out = s.out := rfl
@[simp] theorem State.setH_cfg (b : Bool) : (s.setH b).cfg = s.cfg := rfl
@[simp] theorem State.setH_portReads (b : Bool) : (s.setH b).portReads = s.portReads := rfl

/-! ### `setZ` -/

@[simp] theorem State.setZ_pc (b : Bool) : (s.setZ b).pc = s.pc := rfl
@[simp] theorem State.setZ_ir (b : Bool) : (s.setZ b).ir = s.ir := rfl
@[simp] theorem State.setZ_acc (b : Bool) : (s.setZ b).acc = s.acc := rfl
@[simp] theorem State.setZ_h (b : Bool) : (s.setZ b).h = s.h := rfl
@[simp] theorem State.setZ_z (b : Bool) : (s.setZ b).z = b := rfl
@[simp] theorem State.setZ_mem (b : Bool) : (s.setZ b).mem = s.mem := rfl
@[simp] theorem State.setZ_interruptReason (b : Bool) : (s.setZ b).interruptReason = s.interruptReason := rfl
@[simp] theorem State.setZ_interruptReturn (b : Bool) : (s.setZ b).interruptReturn = s.interruptReturn := rfl
@[simp] theorem State.setZ_terminalConfig (b : Bool) : (s.setZ b).terminalConfig = s.terminalConfig := rfl
@[simp] theorem State.setZ_stackSize (b : Bool) : (s.setZ b).stackSize = s.stackSize := rfl
@[simp] theorem State.setZ_stack (b : Bool) : (s.setZ b).stack = s.stack := rfl
@[simp] theorem State.setZ_out (b : Bool) : (s.setZ b).out = s.out := rfl
@[simp] theorem State.setZ_cfg (b : Bool) : (s.setZ b).cfg = s.cfg := rfl
@[simp] theorem State.setZ_portReads (b : Bool) : (s.setZ b).portReads = s.portReads := rfl

/-! ### `setMem` -/

@[simp] theorem State.setMem_pc (m : Memory) : (s.setMem m).pc = s.pc := rfl
@[simp] theorem State.setMem_ir (m : Memory) : (s.setMem m).ir = s.ir := rfl
@[simp] theorem State.setMem_acc (m : Memory) : (s.setMem m).acc = s.acc := rfl
@[simp] theorem State.setMem_h (m : Memory) : (s.setMem m).h = s.h := rfl
@[simp] theorem State.setMem_z (m : Memory) : (s.setMem m).z = s.z := rfl
@[simp] theorem State.setMem_mem (m : Memory) : (s.setMem m).mem = m := rfl
@[simp] theorem State.setMem_interruptReason (m : Memory) : (s.setMem m).interruptReason = s.interruptReason := rfl
@[simp] theorem State.setMem_interruptReturn (m : Memory) : (s.setMem m).interruptReturn = s.interruptReturn := rfl
@[simp] theorem State.setMem_terminalConfig (m : Memory) : (s.setMem m).terminalConfig = s.terminalConfig := rfl
@[simp] theorem State.setMem_stackSize (m : Memory) : (s.setMem m).stackSize = s.stackSize := rfl
@[simp] theorem State.setMem_stack (m : Memory) : (s.setMem m).stack = s.stack := rfl
@[simp] theorem State.setMem_out (m : Memory) : (s.setMem m).out = s.out := rfl
@[simp] theorem State.setMem_cfg (m : Memory) : (s.setMem m).cfg = s.cfg := rfl
@[simp] theorem State.setMem_portReads (m : Memory) : (s.setMem m).portReads = s.portReads := rfl

/-! ### `setInterruptReason` -/

@[simp] theorem State.setInterruptReason_pc (w : Word) : (s.setInterruptReason w).pc = s.pc := rfl
@[simp] theorem State.setInterruptReason_ir (w : Word) : (s.setInterruptReason w).ir = s.ir := rfl
@[simp] theorem State.setInterruptReason_acc (w : Word) : (s.setInterruptReason w).acc = s.acc := rfl
@[simp] theorem State.setInterruptReason_h (w : Word) : (s.setInterruptReason w).h = s.h := rfl
@[simp] theorem State.setInterruptReason_z (w : Word) : (s.setInterruptReason w).z = s.z := rfl
@[simp] theorem State.setInterruptReason_mem (w : Word) : (s.setInterruptReason w).mem = s.mem := rfl
@[simp] theorem State.setInterruptReason_interruptReason (w : Word) : (s.setInterruptReason w).interruptReason = w := rfl
@[simp] theorem State.setInterruptReason_interruptReturn (w : Word) : (s.setInterruptReason w).interruptReturn = s.interruptReturn := rfl
@[simp] theorem State.setInterruptReason_terminalConfig (w : Word) : (s.setInterruptReason w).terminalConfig = s.terminalConfig := rfl
@[simp] theorem State.setInterruptReason_stackSize (w : Word) : (s.setInterruptReason w).stackSize = s.stackSize := rfl
@[simp] theorem State.setInterruptReason_stack (w : Word) : (s.setInterruptReason w).stack = s.stack := rfl
@[simp] theorem State.setInterruptReason_out (w : Word) : (s.setInterruptReason w).out = s.out := rfl
@[simp] theorem State.setInterruptReason_cfg (w : Word) : (s.setInterruptReason w).cfg = s.cfg := rfl
@[simp] theorem State.setInterruptReason_portReads (w : Word) : (s.setInterruptReason w).portReads = s.portReads := rfl

/-! ### `setInterruptReturn` -/

@[simp] theorem State.setInterruptReturn_pc (a : Addr) : (s.setInterruptReturn a).pc = s.pc := rfl
@[simp] theorem State.setInterruptReturn_ir (a : Addr) : (s.setInterruptReturn a).ir = s.ir := rfl
@[simp] theorem State.setInterruptReturn_acc (a : Addr) : (s.setInterruptReturn a).acc = s.acc := rfl
@[simp] theorem State.setInterruptReturn_h (a : Addr) : (s.setInterruptReturn a).h = s.h := rfl
@[simp] theorem State.setInterruptReturn_z (a : Addr) : (s.setInterruptReturn a).z = s.z := rfl
@[simp] theorem State.setInterruptReturn_mem (a : Addr) : (s.setInterruptReturn a).mem = s.mem := rfl
@[simp] theorem State.setInterruptReturn_interruptReason (a : Addr) : (s.setInterruptReturn a).interruptReason = s.interruptReason := rfl
@[simp] theorem State.setInterruptReturn_interruptReturn (a : Addr) : (s.setInterruptReturn a).interruptReturn = a := rfl
@[simp] theorem State.setInterruptReturn_terminalConfig (a : Addr) : (s.setInterruptReturn a).terminalConfig = s.terminalConfig := rfl
@[simp] theorem State.setInterruptReturn_stackSize (a : Addr) : (s.setInterruptReturn a).stackSize = s.stackSize := rfl
@[simp] theorem State.setInterruptReturn_stack (a : Addr) : (s.setInterruptReturn a).stack = s.stack := rfl
@[simp] theorem State.setInterruptReturn_out (a : Addr) : (s.setInterruptReturn a).out = s.out := rfl
@[simp] theorem State.setInterruptReturn_cfg (a : Addr) : (s.setInterruptReturn a).cfg = s.cfg := rfl
@[simp] theorem State.setInterruptReturn_portReads (a : Addr) : (s.setInterruptReturn a).portReads = s.portReads := rfl

/-! ### `setTerminalConfig` -/

@[simp] theorem State.setTerminalConfig_pc (w : Word) : (s.setTerminalConfig w).pc = s.pc := rfl
@[simp] theorem State.setTerminalConfig_ir (w : Word) : (s.setTerminalConfig w).ir = s.ir := rfl
@[simp] theorem State.setTerminalConfig_acc (w : Word) : (s.setTerminalConfig w).acc = s.acc := rfl
@[simp] theorem State.setTerminalConfig_h (w : Word) : (s.setTerminalConfig w).h = s.h := rfl
@[simp] theorem State.setTerminalConfig_z (w : Word) : (s.setTerminalConfig w).z = s.z := rfl
@[simp] theorem State.setTerminalConfig_mem (w : Word) : (s.setTerminalConfig w).mem = s.mem := rfl
@[simp] theorem State.setTerminalConfig_interruptReason (w : Word) : (s.setTerminalConfig w).interruptReason = s.interruptReason := rfl
@[simp] theorem State.setTerminalConfig_interruptReturn (w : Word) : (s.setTerminalConfig w).interruptReturn = s.interruptReturn := rfl
@[simp] theorem State.setTerminalConfig_terminalConfig (w : Word) : (s.setTerminalConfig w).terminalConfig = w := rfl
@[simp] theorem State.setTerminalConfig_stackSize (w : Word) : (s.setTerminalConfig w).stackSize = s.stackSize := rfl
@[simp] theorem State.setTerminalConfig_stack (w : Word) : (s.setTerminalConfig w).stack = s.stack := rfl
@[simp] theorem State.setTerminalConfig_out (w : Word) : (s.setTerminalConfig w).out = s.out := rfl
@[simp] theorem State.setTerminalConfig_cfg (w : Word) : (s.setTerminalConfig w).cfg = s.cfg := rfl
@[simp] theorem State.setTerminalConfig_portReads (w : Word) : (s.setTerminalConfig w).portReads = s.portReads := rfl

/-! ### `setStackSize` -/

@[simp] theorem State.setStackSize_pc (w : Word) : (s.setStackSize w).pc = s.pc := rfl
@[simp] theorem State.setStackSize_ir (w : Word) : (s.setStackSize w).ir = s.ir := rfl
@[simp] theorem State.setStackSize_acc (w : Word) : (s.setStackSize w).acc = s.acc := rfl
@[simp] theorem State.setStackSize_h (w : Word) : (s.setStackSize w).h = s.h := rfl
@[simp] theorem State.setStackSize_z (w : Word) : (s.setStackSize w).z = s.z := rfl
@[simp] theorem State.setStackSize_mem (w : Word) : (s.setStackSize w).mem = s.mem := rfl
@[simp] theorem State.setStackSize_interruptReason (w : Word) : (s.setStackSize w).interruptReason = s.interruptReason := rfl
@[simp] theorem State.setStackSize_interruptReturn (w : Word) : (s.setStackSize w).interruptReturn = s.interruptReturn := rfl
@[simp] theorem State.setStackSize_terminalConfig (w : Word) : (s.setStackSize w).terminalConfig = s.terminalConfig := rfl
@[simp] theorem State.setStackSize_stackSize (w : Word) : (s.setStackSize w).stackSize = w := rfl
@[simp] theorem State.setStackSize_stack (w : Word) : (s.setStackSize w).stack = s.stack := rfl
@[simp] theorem State.setStackSize_out (w : Word) : (s.setStackSize w).out = s.out := rfl
@[simp] theorem State.setStackSize_cfg (w : Word) : (s.setStackSize w).cfg = s.cfg := rfl
@[simp] theorem State.setStackSize_portReads (w : Word) : (s.setStackSize w).portReads = s.portReads := rfl

/-! ### `setStack` -/

@[simp] theorem State.setStack_pc (l : List Word) : (s.setStack l).pc = s.pc := rfl
@[simp] theorem State.setStack_ir (l : List Word) : (s.setStack l).ir = s.ir := rfl
@[simp] theorem State.setStack_acc (l : List Word) : (s.setStack l).acc = s.acc := rfl
@[simp] theorem State.setStack_h (l : List Word) : (s.setStack l).h = s.h := rfl
@[simp] theorem State.setStack_z (l : List Word) : (s.setStack l).z = s.z := rfl
@[simp] theorem State.setStack_mem (l : List Word) : (s.setStack l).mem = s.mem := rfl
@[simp] theorem State.setStack_interruptReason (l : List Word) : (s.setStack l).interruptReason = s.interruptReason := rfl
@[simp] theorem State.setStack_interruptReturn (l : List Word) : (s.setStack l).interruptReturn = s.interruptReturn := rfl
@[simp] theorem State.setStack_terminalConfig (l : List Word) : (s.setStack l).terminalConfig = s.terminalConfig := rfl
@[simp] theorem State.setStack_stackSize (l : List Word) : (s.setStack l).stackSize = s.stackSize := rfl
@[simp] theorem State.setStack_stack (l : List Word) : (s.setStack l).stack = l := rfl
@[simp] theorem State.setStack_out (l : List Word) : (s.setStack l).out = s.out := rfl
@[simp] theorem State.setStack_cfg (l : List Word) : (s.setStack l).cfg = s.cfg := rfl
@[simp] theorem State.setStack_portReads (l : List Word) : (s.setStack l).portReads = s.portReads := rfl

/-! ### `takePortRead` -/

@[simp] theorem State.takePortRead_pc : s.takePortRead.pc = s.pc := rfl
@[simp] theorem State.takePortRead_ir : s.takePortRead.ir = s.ir := rfl
@[simp] theorem State.takePortRead_acc : s.takePortRead.acc = s.acc := rfl
@[simp] theorem State.takePortRead_h : s.takePortRead.h = s.h := rfl
@[simp] theorem State.takePortRead_z : s.takePortRead.z = s.z := rfl
@[simp] theorem State.takePortRead_mem : s.takePortRead.mem = s.mem := rfl
@[simp] theorem State.takePortRead_interruptReason : s.takePortRead.interruptReason = s.interruptReason := rfl
@[simp] theorem State.takePortRead_interruptReturn : s.takePortRead.interruptReturn = s.interruptReturn := rfl
@[simp] theorem State.takePortRead_terminalConfig : s.takePortRead.terminalConfig = s.terminalConfig := rfl
@[simp] theorem State.takePortRead_stackSize : s.takePortRead.stackSize = s.stackSize := rfl
@[simp] theorem State.takePortRead_stack : s.takePortRead.stack = s.stack := rfl
@[simp] theorem State.takePortRead_out : s.takePortRead.out = s.out := rfl
@[simp] theorem State.takePortRead_cfg : s.takePortRead.cfg = s.cfg := rfl
@[simp] theorem State.takePortRead_portReads : s.takePortRead.portReads = s.portReads + 1 := rfl

/-! ### `advance` -/

@[simp] theorem advance_pc : (advance s).pc = nextPc s.pc := rfl
@[simp] theorem advance_ir : (advance s).ir = s.ir := rfl
@[simp] theorem advance_acc : (advance s).acc = s.acc := rfl
@[simp] theorem advance_h : (advance s).h = s.h := rfl
@[simp] theorem advance_z : (advance s).z = s.z := rfl
@[simp] theorem advance_mem : (advance s).mem = s.mem := rfl
@[simp] theorem advance_interruptReason : (advance s).interruptReason = s.interruptReason := rfl
@[simp] theorem advance_interruptReturn : (advance s).interruptReturn = s.interruptReturn := rfl
@[simp] theorem advance_terminalConfig : (advance s).terminalConfig = s.terminalConfig := rfl
@[simp] theorem advance_stackSize : (advance s).stackSize = s.stackSize := rfl
@[simp] theorem advance_stack : (advance s).stack = s.stack := rfl
@[simp] theorem advance_out : (advance s).out = s.out := rfl
@[simp] theorem advance_cfg : (advance s).cfg = s.cfg := rfl
@[simp] theorem advance_portReads : (advance s).portReads = s.portReads := rfl

/-! ### `raiseFault` (R162) -/

@[simp] theorem raiseFault_pc (op : Opcode) : (raiseFault op s).pc = 0x001#12 := rfl
@[simp] theorem raiseFault_ir (op : Opcode) : (raiseFault op s).ir = s.ir := rfl
@[simp] theorem raiseFault_acc (op : Opcode) : (raiseFault op s).acc = s.acc := rfl
@[simp] theorem raiseFault_h (op : Opcode) : (raiseFault op s).h = s.h := rfl
@[simp] theorem raiseFault_z (op : Opcode) : (raiseFault op s).z = s.z := rfl
@[simp] theorem raiseFault_mem (op : Opcode) : (raiseFault op s).mem = s.mem := rfl
@[simp] theorem raiseFault_interruptReason (op : Opcode) : (raiseFault op s).interruptReason = faultReason op := rfl
@[simp] theorem raiseFault_interruptReturn (op : Opcode) : (raiseFault op s).interruptReturn = nextPc s.pc := rfl
@[simp] theorem raiseFault_terminalConfig (op : Opcode) : (raiseFault op s).terminalConfig = s.terminalConfig := rfl
@[simp] theorem raiseFault_stackSize (op : Opcode) : (raiseFault op s).stackSize = s.stackSize := rfl
@[simp] theorem raiseFault_stack (op : Opcode) : (raiseFault op s).stack = s.stack := rfl
@[simp] theorem raiseFault_out (op : Opcode) : (raiseFault op s).out = s.out := rfl
@[simp] theorem raiseFault_cfg (op : Opcode) : (raiseFault op s).cfg = s.cfg := rfl
@[simp] theorem raiseFault_portReads (op : Opcode) : (raiseFault op s).portReads = s.portReads := rfl

/-! ### `resetEvent` (R36, R200) -/

@[simp] theorem resetEvent_pc : (resetEvent s).pc = 0x000#12 := rfl
@[simp] theorem resetEvent_ir : (resetEvent s).ir = s.ir := rfl
@[simp] theorem resetEvent_acc : (resetEvent s).acc = s.acc := rfl
@[simp] theorem resetEvent_h : (resetEvent s).h = false := rfl
@[simp] theorem resetEvent_z : (resetEvent s).z = false := rfl
@[simp] theorem resetEvent_mem : (resetEvent s).mem = s.mem := rfl
@[simp] theorem resetEvent_interruptReason : (resetEvent s).interruptReason = s.interruptReason := rfl
@[simp] theorem resetEvent_interruptReturn : (resetEvent s).interruptReturn = s.interruptReturn := rfl
@[simp] theorem resetEvent_terminalConfig : (resetEvent s).terminalConfig = s.terminalConfig := rfl
@[simp] theorem resetEvent_stackSize : (resetEvent s).stackSize = stackSizeAtReset s.cfg := rfl
@[simp] theorem resetEvent_stack : (resetEvent s).stack = [] := rfl
@[simp] theorem resetEvent_out : (resetEvent s).out = [] := rfl
@[simp] theorem resetEvent_cfg : (resetEvent s).cfg = s.cfg := rfl
@[simp] theorem resetEvent_portReads : (resetEvent s).portReads = s.portReads := rfl

/-- The reset state is a state that reset leaves. -/
theorem resetEvent_reset : resetEvent State.reset = State.reset := rfl

end Sys2Proof.Machine
end

