-- ==== Sys2Proof/Laws/Ops.lean ====
section
/-! SUPPORT. One lemma per shared operation: everything it can do. -/

namespace Sys2Proof.Machine

variable (s : State)

/-! ### Console -/

@[simp] theorem consoleSend_eq (c : Byte) :
    consoleSend s c = { s with out := if s.cfg.hasConsole then s.out ++ [c] else s.out } := by
  simp only [consoleSend]
  split <;> rfl

/-- A SMALL code sends the characters its ASCII code, if any, stands for. -/
theorem smallSend_eq (c : BitVec 6) :
    smallSend s c = { s with out := if s.cfg.hasConsole then s.out ++ (smallAscii c).toList else s.out } := by
  simp only [smallSend]
  split <;> simp_all

/-- A write to the SMALL port appends the characters of its two codes to `OUT`, in the order the parameter says, and does
nothing else. -/
theorem smallPort_eq (v : Data) :
    smallPort s v =
      { s with
        out :=
          if s.cfg.hasConsole then
            s.out ++
              (if s.cfg.smallHighFirst then [v.extractLsb' 6 6, v.extractLsb' 0 6]
              else [v.extractLsb' 0 6, v.extractLsb' 6 6]).filterMap smallAscii
          else s.out } := by
  have pair (a b : BitVec 6) : [a, b].filterMap smallAscii = (smallAscii a).toList ++ (smallAscii b).toList := by
    cases ha : smallAscii a <;> cases hb : smallAscii b <;> simp [ha, hb]
  simp only [smallPort, smallSend_eq]
  split <;> by_cases h : s.cfg.hasConsole <;> simp only [h, if_true, if_false, Bool.false_eq_true, pair, List.append_assoc]

theorem asciiPort_eq (v : Data) :
    asciiPort s v =
      { s with out := if s.cfg.hasConsole then s.out ++ [v.extractLsb' 0 8] else s.out } := by
  simp [asciiPort]

/-- Both ports only append to `OUT`. -/
theorem asciiPort_appends (v : Data) : ∃ l, asciiPort s v = { s with out := s.out ++ l } := by
  rw [asciiPort_eq]
  split
  · exact ⟨_, rfl⟩
  · exact ⟨[], by simp⟩

theorem smallPort_appends (v : Data) : ∃ l, smallPort s v = { s with out := s.out ++ l } := by
  rw [smallPort_eq]
  by_cases h : s.cfg.hasConsole
  · simp only [h, if_true]
    exact ⟨_, rfl⟩
  · exact ⟨[], by simp [h]⟩

/-! ### Reading -/

/-- Everything a read can do: give a value and leave the state as it is, give a free value at a port, or be refused at
a reserved address. -/
theorem memRead_cases (a : Addr) :
    (∃ w, memRead s a = .ok (w, s)) ∨
    ((a = 0x00A#12 ∨ a = 0x00B#12) ∧ memRead s a = .ok (Config.freeWord s.portReads, s.takePortRead)) ∨
    (¬ Accessible s a ∧ memRead s a = .error (.reservedAddress a)) := by
  rcases regionOf_cases a with rfl | rfl | rfl | rfl | rfl | rfl | ⟨h, hr, -⟩ | ⟨h, -⟩
  · exact .inl ⟨_, rfl⟩
  · exact .inl ⟨_, rfl⟩
  · exact .inr (.inl ⟨.inl rfl, rfl⟩)
  · exact .inr (.inl ⟨.inr rfl, rfl⟩)
  · exact .inl ⟨_, rfl⟩
  · exact .inl ⟨_, rfl⟩
  · cases hc : s.cfg.reservedCells with
    | refuse => exact .inr (.inr ⟨fun ha => by simp [ha hr] at hc, by simp [memRead, h, hc]⟩)
    | ram => exact .inl ⟨s.mem.readWord a, by simp [memRead, h, hc]⟩
  · exact .inl ⟨s.mem.readWord a, by simp [memRead, h]⟩

/-- A read changes at most the count of free values (R60: reads have no side effects). -/
theorem memRead_state {s : State} {a : Addr} {w : Word} {t : State} (h : memRead s a = .ok (w, t)) :
    ∃ k, t = { s with portReads := k } := by
  rcases memRead_cases s a with ⟨v, hv⟩ | ⟨-, hv⟩ | ⟨-, hv⟩
  · rw [hv] at h; cases h; exact ⟨s.portReads, rfl⟩
  · rw [hv] at h; cases h; exact ⟨s.portReads + 1, rfl⟩
  · rw [hv] at h; cases h

/-- A read has a value exactly where the access has a meaning. -/
theorem memRead_ok_iff (a : Addr) : (∃ w t, memRead s a = .ok (w, t)) ↔ Accessible s a := by
  rcases memRead_cases s a with ⟨v, hv⟩ | ⟨ha, hv⟩ | ⟨ha, hv⟩
  · refine ⟨fun _ hr => ?_, fun _ => ⟨_, _, hv⟩⟩
    have hreg := (regionOf_reserved_iff a).2 hr
    cases hc : s.cfg.reservedCells with
    | ram => rfl
    | refuse => simp [memRead, hreg, hc] at hv
  · refine ⟨fun _ hr => ?_, fun _ => ⟨_, _, hv⟩⟩
    rcases ha with rfl | rfl <;> simp at hr
  · exact ⟨fun ⟨_, _, h⟩ => (by rw [hv] at h; cases h), fun h => absurd h ha⟩

/-- A cell of memory reads as the word it holds. -/
theorem memRead_cell {s : State} {a : Addr} (h : IsCell s a) : memRead s a = .ok (s.mem.readWord a, s) := by
  by_cases ho : a.toNat < 8 ∨ 16 ≤ a.toNat
  · simp [memRead, (regionOf_ordinary_iff a).2 ho]
  · push Not at ho
    obtain ⟨h14, hc⟩ := (h.resolve_left (by omega)).resolve_left (by omega)
    have hr : a = 0x00E#12 ∨ a = 0x00F#12 := by
      rcases (by omega : a.toNat = 14 ∨ a.toNat = 15) with e | e
      · exact .inl (BitVec.eq_of_toNat_eq e)
      · exact .inr (BitVec.eq_of_toNat_eq e)
    simp [memRead, (regionOf_reserved_iff a).2 hr, hc]

/-! ### Writing -/

/-- Everything a whole-word write can do. -/
theorem memWrite16_cases (a : Addr) (v : Word) :
    (IsCell s a ∧ memWrite16 s a v = .ok (s.setMem (s.mem.writeWord a v))) ∨
    (a = 0x008#12 ∧ memWrite16 s a v = .ok (s.setInterruptReason v)) ∨
    (a = 0x009#12 ∧ memWrite16 s a v = .ok (s.setInterruptReturn (dataOf v))) ∨
    (a = 0x00A#12 ∧ memWrite16 s a v = .ok (asciiPort s (dataOf v))) ∨
    (a = 0x00B#12 ∧ memWrite16 s a v = .ok (smallPort s (dataOf v))) ∨
    (a = 0x00C#12 ∧ memWrite16 s a v = .ok (s.setTerminalConfig v)) ∨
    (a = 0x00D#12 ∧ memWrite16 s a v = .ok (s.setStackSize v)) ∨
    (¬ Accessible s a ∧ memWrite16 s a v = .error (.reservedAddress a)) := by
  rcases regionOf_cases a with rfl | rfl | rfl | rfl | rfl | rfl | ⟨h, hr, hle⟩ | ⟨h, ho⟩
  · exact .inr (.inl ⟨rfl, rfl⟩)
  · exact .inr (.inr (.inl ⟨rfl, rfl⟩))
  · exact .inr (.inr (.inr (.inl ⟨rfl, rfl⟩)))
  · exact .inr (.inr (.inr (.inr (.inl ⟨rfl, rfl⟩))))
  · exact .inr (.inr (.inr (.inr (.inr (.inl ⟨rfl, rfl⟩)))))
  · exact .inr (.inr (.inr (.inr (.inr (.inr (.inl ⟨rfl, rfl⟩))))))
  · cases hc : s.cfg.reservedCells with
    | refuse =>
      exact .inr (.inr (.inr (.inr (.inr (.inr (.inr
        ⟨fun ha => by simp [ha hr] at hc, by simp [memWrite16, h, hc]⟩))))))
    | ram => exact .inl ⟨.inr (.inr ⟨hle, hc⟩), by simp [memWrite16, h, hc]⟩
  · exact .inl ⟨by tauto, by simp [memWrite16, h]⟩

/-- Everything a DATA-segment write can do. -/
theorem memWrite12_cases (a : Addr) (v : Data) :
    (IsCell s a ∧ memWrite12 s a v = .ok (s.setMem (s.mem.writeWord a (withData (s.mem.readWord a) v)))) ∨
    (a = 0x008#12 ∧ memWrite12 s a v = .ok (s.setInterruptReason (withData s.interruptReason v))) ∨
    (a = 0x009#12 ∧ memWrite12 s a v = .ok (s.setInterruptReturn v)) ∨
    (a = 0x00A#12 ∧ memWrite12 s a v = .ok (asciiPort s v)) ∨
    (a = 0x00B#12 ∧ memWrite12 s a v = .ok (smallPort s v)) ∨
    (a = 0x00C#12 ∧ memWrite12 s a v = .ok (s.setTerminalConfig (withData s.terminalConfig v))) ∨
    (a = 0x00D#12 ∧ memWrite12 s a v = .ok (s.setStackSize (withData s.stackSize v))) ∨
    (¬ Accessible s a ∧ memWrite12 s a v = .error (.reservedAddress a)) := by
  rcases regionOf_cases a with rfl | rfl | rfl | rfl | rfl | rfl | ⟨h, hr, hle⟩ | ⟨h, ho⟩
  · exact .inr (.inl ⟨rfl, rfl⟩)
  · exact .inr (.inr (.inl ⟨rfl, rfl⟩))
  · exact .inr (.inr (.inr (.inl ⟨rfl, rfl⟩)))
  · exact .inr (.inr (.inr (.inr (.inl ⟨rfl, rfl⟩))))
  · exact .inr (.inr (.inr (.inr (.inr (.inl ⟨rfl, rfl⟩)))))
  · exact .inr (.inr (.inr (.inr (.inr (.inr (.inl ⟨rfl, rfl⟩))))))
  · cases hc : s.cfg.reservedCells with
    | refuse =>
      exact .inr (.inr (.inr (.inr (.inr (.inr (.inr
        ⟨fun ha => by simp [ha hr] at hc, by simp [memWrite12, h, hc]⟩))))))
    | ram => exact .inl ⟨.inr (.inr ⟨hle, hc⟩), by simp [memWrite12, h, hc]⟩
  · exact .inl ⟨by tauto, by simp [memWrite12, h]⟩

theorem withData_toNat (c : Word) (v : Data) : (withData c v).toNat = c.toNat / 4096 * 4096 + v.toNat := by
  simp [withData]

@[simp] theorem dataOf_withData (c : Word) (v : Data) : dataOf (withData c v) = v := by simp [withData]

@[simp] theorem instOf_withData (c : Word) (v : Data) : instOf (withData c v) = instOf c := by simp [withData]

/-! ### Stack -/

theorem pushStack_eq_some {s : State} {v : Word} {t : State} :
    pushStack s v = some t ↔ s.stack.length < s.cfg.stackDepth ∧ t = s.setStack (s.stack ++ [v]) := by
  simp only [pushStack]
  split <;> simp_all [eq_comm]

theorem popStack_eq_some {s : State} {v : Word} {t : State} :
    popStack s = some (v, t) ↔ ∃ l, s.stack = l ++ [v] ∧ t = s.setStack l := by
  simp only [popStack]
  rcases List.eq_nil_or_concat s.stack with h | ⟨l, w, h⟩
  · simp [h]
  · simp only [List.concat_eq_append] at h
    constructor
    · intro e
      simp only [h, List.getLast?_append, List.getLast?_singleton, Option.some_or, List.dropLast_concat, Option.some.injEq,
        Prod.mk.injEq] at e
      obtain ⟨rfl, rfl⟩ := e
      exact ⟨l, h, rfl⟩
    · rintro ⟨l', h', rfl⟩
      simp [h']

theorem popStack_eq_none {s : State} : popStack s = none ↔ s.stack = [] := by
  rw [← List.getLast?_eq_none_iff, popStack]
  split <;> simp_all

/-! ### The exception, and implemented instructions -/

theorem raiseFault_eq (op : Opcode) :
    raiseFault op s =
      { s with interruptReturn := nextPc s.pc, interruptReason := faultReason op, pc := 0x001#12 } := rfl

theorem faultReason_toNat (op : Opcode) : (faultReason op).toNat = 0x0FF0 + op.toNat := by
  have h := op.isLt
  simp only [faultReason, BitVec.toNat_add, BitVec.toNat_setWidth, BitVec.toNat_ofNat]
  omega

theorem nextPc_toNat (a : Addr) : (nextPc a).toNat = (a.toNat + 1) % 4096 := by
  simp [nextPc]

@[simp] theorem ifImplemented_true {op : Opcode} {s : State} {e : Host.Outcome State Fault Refusal}
    (h : implemented s.cfg op = true) : ifImplemented op s e = e := by
  simp [ifImplemented, h]

@[simp] theorem ifImplemented_false {op : Opcode} {s : State} {e : Host.Outcome State Fault Refusal}
    (h : implemented s.cfg op = false) : ifImplemented op s e = .next (raiseFault op s) := by
  simp [ifImplemented, h]

/-- Everything a defined instruction can do: its own effect, or the fault entry. -/
theorem ifImplemented_cases (op : Opcode) (e : Host.Outcome State Fault Refusal) :
    (implemented s.cfg op = true ∧ ifImplemented op s e = e) ∨
    (implemented s.cfg op = false ∧ ifImplemented op s e = .next (raiseFault op s)) := by
  cases h : implemented s.cfg op <;> simp [h]

theorem implemented_stack {c : Config} {op : Opcode} (h : op = 0xD#4 ∨ op = 0xE#4) :
    implemented c op = decide (0 < c.stackDepth) := by
  simp only [implemented, if_pos h]

/-! ### Fetch -/

/-- A fetch gives the word at `PC`, puts it into `IR`, and changes at most the count of free values besides. -/
theorem fetch_ok {s : State} {w : Word} {t : State} (h : fetch s = .ok (w, t)) :
    ∃ k, t = { s with ir := w, portReads := k } := by
  simp only [fetch] at h
  split at h
  · next hr =>
    cases h
    obtain ⟨k, rfl⟩ := memRead_state hr
    exact ⟨k, rfl⟩
  · cases h

end Sys2Proof.Machine
end

