-- ==== Sys2Proof/Laws/PerInstr.lean ====
section
/-! SUPPORT. Per instruction, as syntax: the family `OpcodeBits` says that bits 15 to 12 of an instruction's word are its
row's opcode and bits 11 to 0 its operand (R81, R84). -/

namespace Sys2Proof.Laws.OpcodeBits

def Statement (i : Instr) : Prop :=
  (encode i).toNat = (opcodeOf i).toNat * 4096 + (operandOf i).toNat

theorem halt (d : Data) : Statement (.halt d) := joinSegments_toNat _ _
theorem reserved1 (d : Data) : Statement (.reserved1 d) := joinSegments_toNat _ _
theorem jump (d : Addr) : Statement (.jump d) := joinSegments_toNat _ _
theorem jumpz (d : Addr) : Statement (.jumpz d) := joinSegments_toNat _ _
theorem load (d : Addr) : Statement (.load d) := joinSegments_toNat _ _
theorem store (d : Addr) : Statement (.store d) := joinSegments_toNat _ _
theorem lshft (n : Nat) (g : Segment) : Statement (.lshft n g) := joinSegments_toNat _ _
theorem rshft (n : Nat) (g : Segment) : Statement (.rshft n g) := joinSegments_toNat _ _
theorem xor (d : Data) : Statement (.xor d) := joinSegments_toNat _ _
theorem and (d : Data) : Statement (.and d) := joinSegments_toNat _ _
theorem sfull (d : Addr) : Statement (.sfull d) := joinSegments_toNat _ _
theorem add (d : Data) : Statement (.add d) := joinSegments_toNat _ _
theorem reserved2 (d : Data) : Statement (.reserved2 d) := joinSegments_toNat _ _
theorem pop (d : Data) : Statement (.pop d) := joinSegments_toNat _ _
theorem push (d : Data) : Statement (.push d) := joinSegments_toNat _ _
theorem noop (d : Data) : Statement (.noop d) := joinSegments_toNat _ _

end Sys2Proof.Laws.OpcodeBits
end

