-- ==== Sys2Proof/Laws/Step.lean ====
section
/-! SUPPORT. What a step can do. -/

namespace Sys2Proof.Machine

/-- A halted CPU keeps everything (R203). -/
theorem step_of_halted {s : State} (h : s.h = true) : step s = .next s := by
  simp [step, cycle, h]

/-- A running CPU executes the word it fetches. -/
theorem step_of_running {s : State} {w : Word} {t : State} (h : s.h = false) (hf : fetch s = .ok (w, t)) :
    step s = exec (decodeWord w) t := by
  simp [step, cycle, h, hf]

/-- Everything a step that gives a next state can do. -/
theorem step_next_cases {s t : State} (h : step s = .next t) :
    (s.h = true ∧ t = s) ∨
    (s.h = false ∧ ∃ w u, fetch s = .ok (w, u) ∧ exec (decodeWord w) u = .next t) := by
  simp only [step, cycle] at h
  split at h
  · next hh => cases h; exact .inl ⟨hh, rfl⟩
  · next hh =>
    split at h
    · next w u hf => exact .inr ⟨by simpa using hh, w, u, hf, h⟩
    · cases h

/-- The instruction takes the fault entry in this state: a reserved opcode that faults (R150, R151), or a defined
instruction that is not implemented (R152). -/
def TakesFault (i : Instr) (s : State) : Prop :=
  match i with
  | .reserved1 _ => s.cfg.reserved1Faults = true
  | .reserved2 _ => s.cfg.reserved2Faults = true
  | .halt _ | .jump _ | .jumpz _ | .load _ | .store _ | .lshft _ _ | .rshft _ _ | .xor _ | .and _ | .sfull _
  | .add _ | .pop _ | .push _ | .noop _ => implemented s.cfg (opcodeOf i) = false

/-- `t` is what the instruction's own effect makes of `s`. -/
def OwnEffect (i : Instr) (s t : State) : Prop :=
  match i with
  | .halt _ => t = { s with h := true, pc := nextPc s.pc }
  | .reserved1 _ => False
  | .jump d => t = { s with pc := d }
  | .jumpz d => t = { s with pc := if s.z then d else nextPc s.pc }
  | .load a => ∃ w k, memRead s a = .ok (w, { s with portReads := k }) ∧
      t = { s with acc := w, pc := nextPc s.pc, portReads := k }
  | .store a => ∃ u, memWrite12 s a (dataOf s.acc) = .ok u ∧ t = advance u
  | .lshft n g => t = { s with acc := shiftLeft n g s.acc, pc := nextPc s.pc }
  | .rshft n g => t = { s with acc := shiftRight n g s.acc, pc := nextPc s.pc }
  | .xor d => t = { s with acc := onData (fun x => x ^^^ d) s.acc, pc := nextPc s.pc }
  | .and d => t = { s with acc := onData (fun x => x &&& d) s.acc, pc := nextPc s.pc }
  | .sfull a => ∃ u, memWrite16 s a s.acc = .ok u ∧ t = advance u
  | .add d => t = { s with
      acc := addImmediate s.acc d, z := zeroFlag (addImmediate s.acc d), pc := nextPc s.pc }
  | .reserved2 _ => False
  | .pop _ => ∃ l w, s.stack = l ++ [w] ∧ t = { s with acc := w, stack := l, pc := nextPc s.pc }
  | .push _ => s.stack.length < s.cfg.stackDepth ∧ t = { s with stack := s.stack ++ [s.acc], pc := nextPc s.pc }
  | .noop _ => t = { s with pc := nextPc s.pc }

/-- An instruction gives a next state exactly by taking the fault or by its own effect. -/
theorem exec_next_iff (i : Instr) (s t : State) :
    exec i s = .next t ↔
      (TakesFault i s ∧ t = raiseFault (opcodeOf i) s) ∨ (¬ TakesFault i s ∧ OwnEffect i s t) := by
  have own (op : Opcode) (e : Host.Outcome State Fault Refusal) :
      ifImplemented op s e = .next t ↔
        (implemented s.cfg op = false ∧ t = raiseFault op s) ∨ (¬ implemented s.cfg op = false ∧ e = .next t) := by
    cases h : implemented s.cfg op <;> simp [h, eq_comm]
  cases i with
  | halt d | jump d | noop d | lshft n g | rshft n g | xor d | and d | add d =>
    rw [exec, TakesFault, OwnEffect]
    refine (own _ _).trans (or_congr .rfl (and_congr_right fun _ => ?_))
    exact ⟨fun h => by cases h; rfl, fun h => by rw [h]; rfl⟩
  | jumpz d =>
    rw [exec, TakesFault, OwnEffect]
    refine (own _ _).trans (or_congr .rfl (and_congr_right fun _ => ?_))
    split <;> exact ⟨fun h => by cases h; rfl, fun h => by rw [h]; rfl⟩
  | load a =>
    rw [exec, TakesFault, OwnEffect]
    refine (own _ _).trans (or_congr .rfl (and_congr_right fun _ => ?_))
    cases hr : memRead s a with
    | ok p =>
      obtain ⟨w, u⟩ := p
      obtain ⟨k, rfl⟩ := memRead_state hr
      constructor
      · intro h; cases h; exact ⟨w, k, rfl, rfl⟩
      · rintro ⟨w', k', e, rfl⟩; cases e; rfl
    | error r => simp
  | store a =>
    rw [exec, TakesFault, OwnEffect]
    refine (own _ _).trans (or_congr .rfl (and_congr_right fun _ => ?_))
    cases memWrite12 s a (dataOf s.acc) <;> simp [eq_comm]
  | sfull a =>
    rw [exec, TakesFault, OwnEffect]
    refine (own _ _).trans (or_congr .rfl (and_congr_right fun _ => ?_))
    cases memWrite16 s a s.acc <;> simp [eq_comm]
  | reserved1 d =>
    simp only [exec, execReserved1, TakesFault, OwnEffect, opcodeOf]
    cases s.cfg.reserved1Faults <;> simp [eq_comm]
  | reserved2 d =>
    simp only [exec, execReserved2, TakesFault, OwnEffect, opcodeOf]
    cases s.cfg.reserved2Faults <;> simp [eq_comm]
  | pop d =>
    rw [exec, TakesFault, OwnEffect]
    refine (own _ _).trans (or_congr .rfl (and_congr_right fun _ => ?_))
    cases hp : popStack s with
    | none => simp [popStack_eq_none.1 hp]
    | some p =>
      obtain ⟨w, u⟩ := p
      obtain ⟨l, hl, rfl⟩ := popStack_eq_some.1 hp
      constructor
      · intro h; cases h; exact ⟨l, w, hl, rfl⟩
      · rintro ⟨l', w', e, rfl⟩
        obtain ⟨rfl, e'⟩ := List.append_inj' (hl.symm.trans e) rfl
        cases e'; rfl
  | push d =>
    rw [exec, TakesFault, OwnEffect]
    refine (own _ _).trans (or_congr .rfl (and_congr_right fun _ => ?_))
    by_cases hlt : s.stack.length < s.cfg.stackDepth
    · rw [pushStack, if_pos hlt]
      exact ⟨fun h => by cases h; exact ⟨hlt, rfl⟩, fun h => by rw [h.2]; rfl⟩
    · rw [pushStack, if_neg hlt]
      exact ⟨fun h => (by cases h), fun h => absurd h.1 hlt⟩

/-- The changes an instruction can make, each once, whichever it is. -/
theorem exec_next_cases {i : Instr} {s t : State} (h : exec i s = .next t) :
    (∃ op, t = raiseFault op s) ∨
    (∃ a w z b k, t = { s with pc := a, acc := w, z := z, h := b, portReads := k }) ∨
    (∃ a w, IsCell s a ∧ t = { s with pc := nextPc s.pc, mem := s.mem.writeWord a w }) ∨
    (∃ r a c n l, t = { s with
      pc := nextPc s.pc, interruptReason := r, interruptReturn := a, terminalConfig := c, stackSize := n,
      out := s.out ++ l }) ∨
    (∃ l w, s.stack = l ++ [w] ∧ t = { s with pc := nextPc s.pc, acc := w, stack := l }) ∨
    (s.stack.length < s.cfg.stackDepth ∧ t = { s with pc := nextPc s.pc, stack := s.stack ++ [s.acc] }) := by
  rcases (exec_next_iff i s t).1 h with ⟨-, rfl⟩ | ⟨-, h⟩
  · exact .inl ⟨_, rfl⟩
  obtain ⟨l, hl⟩ := asciiPort_appends s (dataOf s.acc)
  obtain ⟨l', hl'⟩ := smallPort_appends s (dataOf s.acc)
  have reg (r : Word) (a : Addr) (c n : Word) (l : List Byte) {u : State}
      (hu : u = { s with
        pc := nextPc s.pc, interruptReason := r, interruptReturn := a, terminalConfig := c, stackSize := n,
        out := s.out ++ l }) :
      ∃ r a c n l, u = { s with
        pc := nextPc s.pc, interruptReason := r, interruptReturn := a, terminalConfig := c, stackSize := n,
        out := s.out ++ l } := ⟨r, a, c, n, l, hu⟩
  cases i with
  | halt d | jump d | noop d | jumpz d | lshft n g | rshft n g | xor d | and d | add d =>
    exact .inr (.inl ⟨_, _, _, _, _, h⟩)
  | reserved1 d | reserved2 d => exact h.elim
  | load a =>
    obtain ⟨w, k, -, rfl⟩ := h
    exact .inr (.inl ⟨_, _, _, _, _, rfl⟩)
  | store a =>
    obtain ⟨u, hu, rfl⟩ := h
    rcases memWrite12_cases s a (dataOf s.acc) with
      ⟨hc, he⟩ | ⟨-, he⟩ | ⟨-, he⟩ | ⟨-, he⟩ | ⟨-, he⟩ | ⟨-, he⟩ | ⟨-, he⟩ | ⟨-, he⟩ <;>
      rw [he] at hu <;> cases hu
    · exact .inr (.inr (.inl ⟨a, _, hc, rfl⟩))
    all_goals refine .inr (.inr (.inr (.inl ?_)))
    · exact reg _ _ _ _ [] (by rw [List.append_nil]; rfl)
    · exact reg _ _ _ _ [] (by rw [List.append_nil]; rfl)
    · exact reg _ _ _ _ l (by rw [hl]; rfl)
    · exact reg _ _ _ _ l' (by rw [hl']; rfl)
    · exact reg _ _ _ _ [] (by rw [List.append_nil]; rfl)
    · exact reg _ _ _ _ [] (by rw [List.append_nil]; rfl)
  | sfull a =>
    obtain ⟨u, hu, rfl⟩ := h
    rcases memWrite16_cases s a s.acc with
      ⟨hc, he⟩ | ⟨-, he⟩ | ⟨-, he⟩ | ⟨-, he⟩ | ⟨-, he⟩ | ⟨-, he⟩ | ⟨-, he⟩ | ⟨-, he⟩ <;>
      rw [he] at hu <;> cases hu
    · exact .inr (.inr (.inl ⟨a, _, hc, rfl⟩))
    all_goals refine .inr (.inr (.inr (.inl ?_)))
    · exact reg _ _ _ _ [] (by rw [List.append_nil]; rfl)
    · exact reg _ _ _ _ [] (by rw [List.append_nil]; rfl)
    · exact reg _ _ _ _ l (by rw [hl]; rfl)
    · exact reg _ _ _ _ l' (by rw [hl']; rfl)
    · exact reg _ _ _ _ [] (by rw [List.append_nil]; rfl)
    · exact reg _ _ _ _ [] (by rw [List.append_nil]; rfl)
  | pop d =>
    obtain ⟨l, w, hs, rfl⟩ := h
    exact .inr (.inr (.inr (.inr (.inl ⟨l, w, hs, rfl⟩))))
  | push d =>
    obtain ⟨hl, rfl⟩ := h
    exact .inr (.inr (.inr (.inr (.inr ⟨hl, rfl⟩))))

/-! ### Placing a word where the next step fetches (R204, log 9) -/

/-- Whatever the state, the step after `placeWord s w` executes exactly the word `w`. -/
theorem step_placeWord (s : State) (w : Word) :
    step (placeWord s w) = exec (decodeWord w) ((placeWord s w).setIr w) := by
  have hh : (placeWord s w).h = false := by
    simp only [placeWord]
    split
    · next u hu =>
      rcases memWrite16_cases ((s.setH false).setPc (if holdsWord s.pc then s.pc else resetVector))
          (if holdsWord s.pc then s.pc else resetVector) w with
        ⟨-, he⟩ | ⟨-, he⟩ | ⟨-, he⟩ | ⟨-, he⟩ | ⟨-, he⟩ | ⟨-, he⟩ | ⟨-, he⟩ | ⟨-, he⟩ <;>
        rw [he] at hu <;> cases hu <;> simp [asciiPort_eq, smallPort_eq]
    · simp
  refine step_of_running hh ?_
  have key : memRead (placeWord s w) (placeWord s w).pc = .ok (w, placeWord s w) := by
    by_cases hp : holdsWord s.pc = true
    · cases hreg : regionOf s.pc <;> simp [holdsWord, hreg] at hp <;>
        simp [placeWord, holdsWord, hreg, memWrite16, memRead]
    · simp [placeWord, hp, memWrite16, memRead, resetVector, regionOf]
  simp [fetch, key]

end Sys2Proof.Machine
end

