-- ==== Sys2Proof/Tests/Slice0.lean ====
section
/-! SUPPORT. Tests. Expected results come from 95_test_vectors.md (V<n>) and from the encodings of the instruction rules. -/

namespace Sys2Proof.Tests

open Sys2Proof.Machine

/-! ### Well-formedness: an ill-formed term for each check (R83) -/

theorem test_wf_lshft_count_too_large : (Instr.lshft 2048 .whole).wellFormed = false := by decide
theorem test_wf_rshft_count_too_large : (Instr.rshft 2048 .data).wellFormed = false := by decide
theorem test_wf_largest_count : (Instr.lshft 2047 .data).wellFormed = true := by decide

/-! ### Decoding: each row's word, bit by bit from its rule's "Encoding" line -/

theorem test_decode_halt : decodeWord 0b0000101010111100#16 = .halt 0xABC#12 := by decide
theorem test_decode_reserved1 : decodeWord 0b0001000000000001#16 = .reserved1 0x001#12 := by decide
theorem test_decode_jump : decodeWord 0b0010000000010000#16 = .jump 0x010#12 := by decide
theorem test_decode_jumpz : decodeWord 0b0011000000010100#16 = .jumpz 0x014#12 := by decide
theorem test_decode_load : decodeWord 0b0100000000100000#16 = .load 0x020#12 := by decide
theorem test_decode_store : decodeWord 0b0101000000010011#16 = .store 0x013#12 := by decide
theorem test_decode_lshft : decodeWord 0b0110000000001001#16 = .lshft 4 .data := by decide
theorem test_decode_rshft : decodeWord 0b0111111111111110#16 = .rshft 2047 .whole := by decide
theorem test_decode_xor : decodeWord 0b1000000011111111#16 = .xor 0x0FF#12 := by decide
theorem test_decode_and : decodeWord 0b1001101000001100#16 = .and 0xA0C#12 := by decide
theorem test_decode_sfull : decodeWord 0b1010000000100001#16 = .sfull 0x021#12 := by decide
theorem test_decode_add : decodeWord 0b1011100000000000#16 = .add 0x800#12 := by decide
theorem test_decode_reserved2 : decodeWord 0b1100000000000000#16 = .reserved2 0x000#12 := by decide
theorem test_decode_pop : decodeWord 0b1101000000000000#16 = .pop 0x000#12 := by decide
theorem test_decode_push : decodeWord 0b1110000100100011#16 = .push 0x123#12 := by decide
theorem test_decode_noop : decodeWord 0b1111111111111111#16 = .noop 0xFFF#12 := by decide

/-- One byte is no instruction (R80). -/
theorem test_decode_truncated : decode [0x00#8] = .error .truncated := by rfl

/-- The table's numbering: the row `JUMP` with address `0x010`. -/
theorem test_decode_table_word : decodeTableWord 16 0x2010 = some (.jump 0x010#12) := by decide

/-! ### One step at `PC = 0x100` -/

/-- The state of Part 2 of the vectors: just after reset, but `PC`, `ACC` and `SR.Z`, and the word `w` at `PC`. -/
def before (pc : Addr) (acc : Word) (z : Bool) (w : Word) : State :=
  placeWord { State.reset with pc := pc, acc := acc, z := z } w

/-- The state `s` with the word `w` at `a`. -/
def withCell (s : State) (a : Addr) (w : Word) : State := { s with mem := s.mem.writeWord a w }

/-- `f` of the state after one step, if there is one. -/
def after {α : Type} (f : State → α) (s : State) : Option α :=
  match step s with
  | .next t => some (f t)
  | .fault _ => none
  | .refused _ => none

/-- The reason a step is refused, if it is. -/
def refusal (s : State) : Option Refusal :=
  match step s with
  | .next _ => none
  | .fault _ => none
  | .refused r => some r

/-- V1 and V3: `HALT` sets H and advances, with a wrap at `0xFFF`. -/
theorem test_halt : after (fun t => (t.h, t.pc)) (before 0x100#12 0#16 false 0x0000#16) = some (true, 0x101#12) := by
  decide
theorem test_halt_wraps : after (fun t => (t.h, t.pc)) (before 0xFFF#12 0#16 false 0x0000#16) = some (true, 0x000#12) := by
  decide

/-- V4, V6. -/
theorem test_jump : after (fun t => t.pc) (before 0x100#12 0#16 false 0x2010#16) = some 0x010#12 := by decide
theorem test_jump_to_the_top : after (fun t => t.pc) (before 0x100#12 0#16 false 0x2FFF#16) = some 0xFFF#12 := by decide

/-- V7, V10: the flag decides, not `ACC`. -/
theorem test_jumpz_taken : after (fun t => (t.pc, t.z)) (before 0x100#12 1#16 true 0x3123#16) = some (0x123#12, true) := by
  decide
theorem test_jumpz_not_taken : after (fun t => (t.pc, t.z)) (before 0x100#12 0#16 false 0x3123#16) = some (0x101#12, false) := by
  decide

/-- V12. -/
theorem test_noop_wraps : after (fun t => t.pc) (before 0xFFF#12 0x1234#16 true 0xFFFF#16) = some 0x000#12 := by decide

/-- V20: the flag stays. V22: `LOAD 0x009` has a zero INST segment. -/
theorem test_load : after (fun t => (t.acc, t.z)) (withCell (before 0x100#12 0#16 true 0x4200#16) 0x200#12 0xBEEF#16) =
    some (0xBEEF#16, true) := by decide
theorem test_load_return_register :
    after (fun t => t.acc) { before 0x100#12 0xFFFF#16 false 0x4009#16 with interruptReturn := 0x123#12 } =
      some 0x0123#16 := by decide

/-- V26: the cell keeps its opcode. V29: a store to itself changes the word, not the instruction. -/
theorem test_store : after (fun t => (t.mem.readWord 0x200#12, t.acc))
    (withCell (before 0x100#12 0x7123#16 false 0x5200#16) 0x200#12 0xB000#16) = some (0xB123#16, 0x7123#16) := by decide
theorem test_store_to_itself : after (fun t => (t.mem.readWord 0x100#12, t.pc)) (before 0x100#12 0x0FFF#16 false 0x5100#16) =
    some (0x5FFF#16, 0x101#12) := by decide

/-- V31, V32. -/
theorem test_sfull : after (fun t => t.mem.readWord 0x200#12)
    (withCell (before 0x100#12 0x3000#16 false 0xA200#16) 0x200#12 0xFFFF#16) = some 0x3000#16 := by decide
theorem test_sfull_return_register : after (fun t => t.interruptReturn) (before 0x100#12 0xF456#16 false 0xA009#16) =
    some 0x456#12 := by decide

/-- V53: confined to the segment. V63: the largest count, no flag. -/
theorem test_lshft_data : after (fun t => t.acc) (before 0x100#12 0x8801#16 false 0x6003#16) = some 0x8002#16 := by decide
theorem test_lshft_whole_2047 : after (fun t => (t.acc, t.z)) (before 0x100#12 0xFFFF#16 true 0x6FFE#16) =
    some (0x0000#16, true) := by decide

/-- V68: the shift is logical and confined. V73: INST moves to the bottom. -/
theorem test_rshft_data : after (fun t => t.acc) (before 0x100#12 0x8801#16 false 0x7003#16) = some 0x8400#16 := by decide
theorem test_rshft_whole_12 : after (fun t => t.acc) (before 0x100#12 0xA123#16 false 0x7018#16) = some 0x000A#16 := by decide

/-- V81, V83. -/
theorem test_xor : after (fun t => t.acc) (before 0x100#12 0xA5F0#16 false 0x80FF#16) = some 0xA50F#16 := by decide
theorem test_xor_keeps_the_flag : after (fun t => (t.acc, t.z)) (before 0x100#12 0x0000#16 true 0x8001#16) =
    some (0x0001#16, true) := by decide

/-- V86, V84. -/
theorem test_and : after (fun t => t.acc) (before 0x100#12 0xA5F3#16 false 0x900F#16) = some 0xA003#16 := by decide
theorem test_and_keeps_the_flag : after (fun t => (t.acc, t.z)) (before 0x100#12 0xA5F3#16 false 0x9000#16) =
    some (0xA000#16, false) := by decide

/-- V93: zero extension, Z from the DATA segment. V90: Z cleared. -/
theorem test_add_decrement : after (fun t => (t.acc, t.z)) (before 0x100#12 0x0001#16 false 0xBFFF#16) =
    some (0x1000#16, true) := by decide
theorem test_add_clears_the_flag : after (fun t => (t.acc, t.z)) (before 0x100#12 0x0001#16 true 0xB000#16) =
    some (0x0001#16, false) := by decide

/-- V112: a popped zero does not set Z. V117: without a stack, a fault. -/
theorem test_pop : after (fun t => (t.acc, t.stack, t.z))
    { before 0x100#12 0x5555#16 false 0xD000#16 with stack := [0xBEEF#16, 0x0000#16] } =
      some (0x0000#16, [0xBEEF#16], false) := by decide
theorem test_pop_without_a_stack : after (fun t => (t.interruptReturn, t.interruptReason, t.pc, t.acc))
    { before 0x100#12 0x1234#16 false 0xD000#16 with cfg := { Config.standard with stackDepth := 0 } } =
      some (0x101#12, 0x0FFD#16, 0x001#12, 0x1234#16) := by decide

/-- V111: the operand is ignored. V118: without a stack, a fault. -/
theorem test_push : after (fun t => t.stack) { before 0x100#12 0x0001#16 false 0xE123#16 with stack := [0xBEEF#16] } =
    some [0xBEEF#16, 0x0001#16] := by decide
theorem test_push_without_a_stack : after (fun t => (t.interruptReturn, t.interruptReason, t.pc, t.stack))
    { before 0x100#12 0x1234#16 false 0xE000#16 with cfg := { Config.standard with stackDepth := 0 } } =
      some (0x101#12, 0x0FFE#16, 0x001#12, []) := by decide

/-- V114, V115, V44: the UNDEFINED cases are refused by name. -/
theorem test_pop_empty_is_refused : refusal (before 0x100#12 0#16 false 0xD000#16) = some .stackUnderflow := by decide
theorem test_push_full_is_refused :
    refusal { before 0x100#12 0#16 false 0xE000#16 with stack := List.replicate 16 0#16 } = some .stackOverflow := by decide
theorem test_load_reserved_is_refused : refusal (before 0x100#12 0#16 false 0x400E#16) = some (.reservedAddress 0x00E#12) := by
  decide

/-- V121, V122: the reserved opcodes' faults. V123: refused where the implementation does not fault. -/
theorem test_reserved1 : after (fun t => (t.interruptReturn, t.interruptReason, t.pc, t.ir))
    (before 0x040#12 0xAAAA#16 true 0x1ABC#16) = some (0x041#12, 0x0FF1#16, 0x001#12, 0x1ABC#16) := by decide
theorem test_reserved2_wraps : after (fun t => (t.interruptReturn, t.interruptReason, t.pc))
    (before 0xFFF#12 0#16 false 0xC000#16) = some (0x000#12, 0x0FFC#16, 0x001#12) := by decide
theorem test_reserved1_refused :
    refusal { before 0x100#12 0#16 false 0x1000#16 with cfg := { Config.standard with reserved1Faults := false } } =
      some (.reservedOpcode 0x1#4) := by decide

/-- V35: NULL is sent, the high bits are ignored. V37, V40: SMALL, high code first, NULL omitted. -/
theorem test_ascii_null : after (fun t => t.out) (before 0x100#12 0xFF00#16 false 0xA00A#16) = some [0x00#8] := by decide
theorem test_small_two : after (fun t => t.out) (before 0x100#12 0x01E2#16 false 0x500B#16) = some [0x48#8, 0x69#8] := by decide
theorem test_small_null_first : after (fun t => t.out) (before 0x100#12 0x0FC7#16 false 0x500B#16) = some [0x48#8] := by decide

/-- V130, V131, V133: `$STACK_SIZE` after reset. V134: reset clears H. -/
theorem test_reset_stack_size : [16, 0, 65536].map (fun n => stackSizeAtReset { Config.standard with stackDepth := n }) =
    [0x0010#16, 0x0000#16, 0xFFFF#16] := by decide
theorem test_reset_clears_halt : (resetEvent { State.reset with h := true, pc := 0x123#12 }).h = false := by decide

/-- R24 and D3: `$SR` as a number. -/
theorem test_status_number : statusNumber { State.reset with h := true } = 0b10#2 := by decide

/-- The word a row of the table is placed with is the first instruction executed after reset. -/
theorem test_first_instruction : after (fun t => (t.ir, t.pc)) (State.reset.withFetchWord 16 0x2010) =
    some (0x2010#16, 0x010#12) := by decide

/-- A halted machine is started by placing a word; where `PC` names no cell, the word is placed at the reset vector. -/
theorem test_placed_at_reset_vector :
    after (fun t => t.pc) ({ State.reset with h := true, pc := 0x00F#12 }.withFetchWord 16 0x2010) = some 0x010#12 := by
  decide

/-! ### Witnesses: for each statement with hypotheses, a state and operands that meet them all -/

theorem test_witness_EveryWordDecodesToItsRow : (15 < 16 ∧ 4095 < 4096) ∧ (0 < 16 ∧ 0 < 4096) := by decide
theorem test_witness_DecodeOfEncodeIsTheInstruction : (Instr.rshft 2047 .data).wellFormed = true := by decide

theorem test_witness_StepRunsDecodedInstruction :
    let s := before 0x100#12 0#16 false 0x2010#16
    s.h = false ∧ IsCell s s.pc ∧ (Instr.jump 0x010#12).wellFormed = true ∧
      decode [s.mem.readByte (byteAddress s.pc), s.mem.readByte (byteAddress s.pc + 1)] = .ok (.jump 0x010#12, []) :=
  ⟨by decide, by decide, by decide, by rfl⟩

theorem test_witness_StepFetchesThroughMemRead :
    State.reset.h = false ∧ memRead State.reset State.reset.pc = .ok (0x0000#16, State.reset) ∧
      memRead { State.reset with pc := 0x00E#12 } 0x00E#12 = .error (.reservedAddress 0x00E#12) :=
  ⟨by decide, by rfl, by rfl⟩

theorem test_witness_HaltedMachineKeepsEverything : { State.reset with h := true }.h = true := by decide

theorem test_witness_StepIsDefinedExactlyOutsideUndefinedCases :
    State.reset.h = false ∧ Accessible State.reset 0x00D#12 ∧ ¬ Accessible State.reset 0x00E#12 ∧
      ¬ Accessible State.reset 0x00F#12 := by decide

/-- The clauses of the read and write statements, at the values where they meet. -/
theorem test_witness_MemReadByAddress :
    IsCell State.reset 0x007#12 ∧ IsCell State.reset 0x010#12 ∧ IsCell State.reset 0xFFF#12 ∧
      ¬ IsCell State.reset 0x008#12 ∧ ¬ IsCell State.reset 0x00D#12 ∧ ¬ IsCell State.reset 0x00F#12 ∧
      State.reset.cfg.reservedCells = .refuse := by decide
theorem test_witness_WholeWordWriteByAddress :
    let s := { State.reset with cfg := { Config.standard with reservedCells := .ram } }
    IsCell s 0x00E#12 ∧ IsCell s 0x00F#12 ∧ ¬ IsCell s 0x00D#12 ∧ IsCell State.reset 0x000#12 := by decide
theorem test_witness_DataWriteByAddress :
    IsCell State.reset 0x001#12 ∧ ¬ IsCell State.reset 0x00E#12 ∧ State.reset.cfg.reservedCells = .refuse := by decide
theorem test_witness_WriteLeavesOtherAddresses :
    memWrite16 State.reset 0x00D#12 0x0040#16 = .ok { State.reset with stackSize := 0x0040#16 } ∧
      (0x00D#12 : Addr) ≠ 0x00C#12 := ⟨by rfl, by decide⟩

/-- Every opcode is implemented in the reset state: the hypotheses `implemented s.cfg op = true` of the control, memory
access, ALU and console statements. -/
theorem test_witness_implemented : ∀ op : Opcode, implemented State.reset.cfg op = true := by decide

theorem test_witness_HaltSetsTheHaltFlag : implemented State.reset.cfg 0x0#4 = true := by decide
theorem test_witness_JumpSetsThePc : implemented State.reset.cfg 0x2#4 = true := by decide
theorem test_witness_JumpzFollowsTheZeroFlag :
    implemented State.reset.cfg 0x3#4 = true ∧ State.reset.z = false ∧ { State.reset with z := true }.z = true := by decide
theorem test_witness_NoopOnlyAdvances : implemented State.reset.cfg 0xF#4 = true := by decide
theorem test_witness_LoadReadsTheWord : implemented State.reset.cfg 0x4#4 = true ∧ Accessible State.reset 0x00A#12 := by decide
theorem test_witness_StoreKeepsTheOpcodeOfACell :
    implemented State.reset.cfg 0x5#4 = true ∧ IsCell State.reset 0x007#12 := by decide
theorem test_witness_SfullReplacesTheWholeCell :
    implemented State.reset.cfg 0xA#4 = true ∧ IsCell State.reset 0xFFF#12 := by decide
theorem test_witness_StoresWriteTheMappedRegisters :
    implemented State.reset.cfg 0xA#4 = true ∧ implemented State.reset.cfg 0x5#4 = true := by decide
theorem test_witness_ReservedAddressesAreRefused :
    State.reset.cfg.reservedCells = .refuse ∧ State.reset.h = false ∧ implemented State.reset.cfg 0x4#4 = true ∧
      implemented State.reset.cfg 0x5#4 = true ∧ implemented State.reset.cfg 0xA#4 = true := by decide
theorem test_witness_StoredWordIsFetchedNext :
    State.reset.h = false ∧ IsCell State.reset (nextPc State.reset.pc) ∧ implemented State.reset.cfg 0xA#4 = true ∧
      implemented State.reset.cfg 0x5#4 = true := by decide
theorem test_witness_LeftShiftOfTheSelectedSegment : implemented State.reset.cfg 0x6#4 = true := by decide
theorem test_witness_RightShiftOfTheSelectedSegment : implemented State.reset.cfg 0x7#4 = true := by decide
theorem test_witness_XorActsOnTheDataSegment : implemented State.reset.cfg 0x8#4 = true := by decide
theorem test_witness_AndActsOnTheDataSegment : implemented State.reset.cfg 0x9#4 = true := by decide
theorem test_witness_AddIsTheModularSum : implemented State.reset.cfg 0xB#4 = true := by decide
theorem test_witness_AddCarriesIntoTheInstSegment :
    implemented State.reset.cfg 0xB#4 = true ∧ 4096 ≤ (dataOf 0x0FFF#16).toNat + (0x001#12 : Data).toNat := by decide
theorem test_witness_ShiftAndAddIdioms : ∀ op : Opcode, op = 0x6#4 ∨ op = 0x7#4 ∨ op = 0x8#4 ∨ op = 0xB#4 →
    implemented State.reset.cfg op = true := by decide

theorem test_witness_PopTakesTheTopWord :
    0 < State.reset.cfg.stackDepth ∧ { State.reset with stack := [0x1111#16, 0xBEEF#16] }.stack = [0x1111#16] ++ [0xBEEF#16] := by
  decide
theorem test_witness_PushPutsTheAccumulatorOnTop :
    { State.reset with stack := List.replicate 15 0#16 }.stack.length < State.reset.cfg.stackDepth := by decide
theorem test_witness_StackLimitsAreRefused :
    0 < State.reset.cfg.stackDepth ∧ State.reset.stack = [] ∧
      { State.reset with stack := List.replicate 16 0#16 }.stack.length = State.reset.cfg.stackDepth := by decide
theorem test_witness_PopAfterPushRestores : State.reset.stack.length < State.reset.cfg.stackDepth := by decide
theorem test_witness_OnlyPopAndPushChangeTheStack :
    exec (.push 0#12) State.reset = .next { State.reset with stack := [0#16], pc := 0x001#12 } := by rfl

theorem test_witness_ReservedOpcodesFaultOrAreRefused :
    State.reset.cfg.reserved1Faults = true ∧ State.reset.cfg.reserved2Faults = true ∧
      { Config.standard with reserved1Faults := false }.reserved1Faults = false ∧
      { Config.standard with reserved2Faults := false }.reserved2Faults = false := by decide
theorem test_witness_UnimplementedInstructionsFault :
    opcodeOf (.push 0#12) ≠ 0x1#4 ∧ opcodeOf (.push 0#12) ≠ 0xC#4 ∧
      implemented { Config.standard with stackDepth := 0 } (opcodeOf (.push 0#12)) = false ∧
      implemented { Config.standard with omitted := [0xB#4] } (opcodeOf (.add 0#12)) = false := by decide
theorem test_witness_LegalParametersImplementAllButTheStack :
    LegalConfig Config.standard ∧ LegalConfig { Config.standard with stackDepth := 0 } ∧
      ¬ LegalConfig { Config.standard with stackDepth := 15 } := by decide
theorem test_witness_HandlerCanReturnFromAFault :
    let s := withCell State.reset 0x026#12 0x2000#16
    implemented s.cfg 0x4#4 = true ∧ implemented s.cfg 0x5#4 = true ∧ implemented s.cfg 0x2#4 = true ∧
      IsCell s 0x026#12 ∧ decodeWord (s.mem.readWord 0x026#12) = .jump 0x000#12 := by decide
theorem test_witness_FaultRegistersRecordTheFaultingOpcode :
    exec (.reserved1 0#12) State.reset =
      .next { State.reset with interruptReturn := 0x001#12, interruptReason := 0x0FF1#16, pc := 0x001#12 } := by rfl

theorem test_witness_AsciiPortSendsOneCharacter :
    implemented State.reset.cfg 0x5#4 = true ∧ implemented State.reset.cfg 0xA#4 = true := by decide
theorem test_witness_SmallPortSendsTwoCodes :
    implemented State.reset.cfg 0x5#4 = true ∧ implemented State.reset.cfg 0xA#4 = true ∧
      State.reset.cfg.hasConsole = true ∧ State.reset.cfg.smallHighFirst = true := by decide
theorem test_witness_OutputOnlyGrowsAndOnlyAtThePorts :
    exec (.store 0x00A#12) State.reset = .next { State.reset with out := [0x00#8], pc := 0x001#12 } := by rfl

theorem test_witness_StepKeepsTheInvariant :
    State.reset.Inv ∧ step State.reset = .next { State.reset with h := true, pc := 0x001#12 } := ⟨by decide, by rfl⟩
theorem test_witness_ResetEstablishesTheInvariant : (withCell State.reset 0x010#12 0x1234#16).Inv := by decide
theorem test_witness_StepKeepsTheParameters :
    step State.reset = .next { State.reset with h := true, pc := 0x001#12 } := by rfl
theorem test_witness_OnlyHaltSetsTheHaltFlag :
    step State.reset = .next { State.reset with h := true, pc := 0x001#12 } ∧
      memRead State.reset State.reset.pc = .ok (0x0000#16, State.reset) ∧ decodeWord 0x0000#16 = .halt 0x000#12 :=
  ⟨by rfl, by rfl, by decide⟩
theorem test_witness_OnlyAddWritesTheZeroFlag :
    exec (.add 0x000#12) State.reset = .next { State.reset with z := true, pc := 0x001#12 } ∧
      implemented State.reset.cfg 0xB#4 = true := ⟨by rfl, by decide⟩
theorem test_witness_ConfigurationCellsInfluenceNothing :
    ∀ d : Addr, Instr.load 0x00B#12 = .load d ∨ Instr.load 0x00B#12 = .store d ∨ Instr.load 0x00B#12 = .sfull d →
      d ≠ 0x00C#12 ∧ d ≠ 0x00D#12 := by
  rintro d (h | h | h) <;> cases h
  decide

theorem test_witness_FrameOfControlInstructions :
    Instr.noop 0#12 ∈ [Instr.halt 0#12, .jump 0#12, .jumpz 0#12, .noop 0#12] ∧
      implemented State.reset.cfg (opcodeOf (.noop 0#12)) = true ∧
      exec (.noop 0#12) State.reset = .next { State.reset with pc := 0x001#12 } := ⟨by decide, by decide, by rfl⟩
theorem test_witness_FrameOfAccumulatorInstructions :
    Instr.xor 1#12 ∈ [Instr.lshft 0 .data, .rshft 0 .data, .xor 1#12, .and 1#12, .add 1#12, .load 1#12] ∧
      implemented State.reset.cfg (opcodeOf (.xor 1#12)) = true ∧
      exec (.xor 1#12) State.reset = .next { State.reset with acc := 0x0001#16, pc := 0x001#12 } :=
  ⟨by decide, by decide, by rfl⟩
theorem test_witness_FrameOfStackInstructions :
    Instr.push 0#12 ∈ [Instr.pop 0#12, .push 0#12] ∧ implemented State.reset.cfg (opcodeOf (.push 0#12)) = true ∧
      exec (.push 0#12) State.reset = .next { State.reset with stack := [0#16], pc := 0x001#12 } :=
  ⟨by decide, by decide, by rfl⟩
theorem test_witness_FrameOfStoringInstructions :
    Instr.sfull 0x00D#12 ∈ [Instr.store 0x00D#12, .sfull 0x00D#12] ∧
      implemented State.reset.cfg (opcodeOf (.sfull 0x00D#12)) = true ∧ ¬ IsCell State.reset 0x00D#12 ∧
      exec (.sfull 0x00D#12) State.reset = .next { State.reset with stackSize := 0x0000#16, pc := 0x001#12 } :=
  ⟨by decide, by decide, by decide, by rfl⟩
theorem test_witness_FrameOfFaultingInstructions :
    opcodeOf (.reserved2 0#12) = 0xC#4 ∧ exec (.reserved2 0#12) State.reset =
      .next { State.reset with interruptReturn := 0x001#12, interruptReason := 0x0FFC#16, pc := 0x001#12 } :=
  ⟨by decide, by rfl⟩

end Sys2Proof.Tests
end

section
/-! PROOFS. Segments and bits of a word as numbers (00_scope.md R8). -/

namespace Sys2Proof.Proofs

/-- Bits are numbered from the least significant (R8); for every width, so for words and DATA segments alike. -/
theorem getLsbD_eq_div_mod {n : Nat} (x : BitVec n) (k : Nat) :
    x.getLsbD k = decide (x.toNat / 2 ^ k % 2 = 1) := by
  rw [← BitVec.testBit_toNat, Nat.testBit_eq_decide_div_mod_eq]

/-- The segment-select bit is the operand's lowest bit (R83). -/
theorem shiftSegment_eq_data_iff (d : Data) : shiftSegment d = .data ↔ d.toNat % 2 = 1 := by
  rw [shiftSegment_eq]
  split <;> simp [*]

/-- Settles O1: the laws of the bit-field helpers as numbers; the recomposition is that of `joinSegments`. -/
theorem segmentsAreQuotientAndRemainder : Obligations.SegmentsAreQuotientAndRemainder := by
  intro w
  have recomposition : w.toNat = (instOf w).toNat * 4096 + (dataOf w).toNat := by
    rw [← joinSegments_toNat, joinSegments_segments]
  exact ⟨dataOf_toNat w, instOf_toNat w, recomposition, getLsbD_eq_div_mod w, shiftCount_eq (dataOf w),
    shiftSegment_eq_data_iff (dataOf w)⟩

end Sys2Proof.Proofs
end

section
/-! PROOFS. Shared by the proofs about the state: what the step executes (10_state.md R39), and what the two stores of
20_memory.md R57 and R58 can change. -/

namespace Sys2Proof.Proofs

open Sys2Proof.Machine

/-! ### The fetch and the step -/

/-- The fetch is the read at `PC`, with the word put into `IR` (R39). -/
theorem fetch_eq_ok_iff {s u : State} {w : Word} :
    fetch s = .ok (w, u) ↔ ∃ v, memRead s s.pc = .ok (w, v) ∧ u = v.setIr w := by
  rw [fetch]
  cases memRead s s.pc with
  | error r => simp
  | ok p =>
    obtain ⟨w', v'⟩ := p
    constructor
    · intro h
      cases h
      exact ⟨v', rfl, rfl⟩
    · rintro ⟨v, h, rfl⟩
      cases h
      rfl

theorem step_eq_refused {s : State} {r : Refusal} (hh : s.h = false) (hr : memRead s s.pc = .error r) :
    step s = .refused r := by
  simp [step, cycle, fetch, hh, hr]

/-- A step that answers a next state keeps the state or is the `exec` of some word, in a state that differs only in `IR`
and in the count of free values. -/
theorem step_next_exec {s t : State} (h : step s = .next t) :
    t = s ∨ ∃ w k, exec (decodeWord w) { s with ir := w, portReads := k } = .next t := by
  rcases step_next_cases h with ⟨-, rfl⟩ | ⟨-, w, u, hf, he⟩
  · exact .inl rfl
  · obtain ⟨k, rfl⟩ := fetch_ok hf
    exact .inr ⟨w, k, he⟩

/-! ### The two writes -/

/-- The word whose INST segment a DATA-segment write at `a` keeps (R58); at `0x009` and the ports it plays no part. -/
def heldWord (s : State) (a : Addr) : Word :=
  match regionOf a with
  | .interruptReason => s.interruptReason
  | .terminalConfig => s.terminalConfig
  | .stackSize => s.stackSize
  | .ordinary | .interruptReturn | .asciiOut | .smallOut | .reserved => s.mem.readWord a

/-- A DATA-segment write is the whole-word write of the held word with its DATA segment replaced. -/
theorem memWrite12_eq_memWrite16 (s : State) (a : Addr) (v : Data) :
    memWrite12 s a v = memWrite16 s a (withData (heldWord s a) v) := by
  rw [memWrite12, memWrite16, heldWord]
  cases regionOf a <;> simp only [dataOf_withData]

/-- Both stores are a whole-word write and the advance of `PC`. -/
theorem ownEffect_store {a : Addr} {s t : State} (h : OwnEffect (.store a) s t ∨ OwnEffect (.sfull a) s t) :
    ∃ x u, memWrite16 s a x = .ok u ∧ t = advance u := by
  rcases h with ⟨u, hu, ht⟩ | ⟨u, hu, ht⟩
  · rw [memWrite12_eq_memWrite16] at hu
    exact ⟨_, u, hu, ht⟩
  · exact ⟨_, u, hu, ht⟩

/-- A whole-word write changes at most the cells, the four mapped registers and the console output. -/
theorem memWrite16_frame {s u : State} {a : Addr} {x : Word} (h : memWrite16 s a x = .ok u) :
    u = { s with
      mem := u.mem, interruptReason := u.interruptReason, interruptReturn := u.interruptReturn,
      terminalConfig := u.terminalConfig, stackSize := u.stackSize, out := u.out } := by
  rcases memWrite16_cases s a x with
    ⟨-, he⟩ | ⟨-, he⟩ | ⟨-, he⟩ | ⟨-, he⟩ | ⟨-, he⟩ | ⟨-, he⟩ | ⟨-, he⟩ | ⟨-, he⟩ <;>
    rw [he] at h <;> cases h
  case inr.inr.inr.inl => rw [asciiPort_eq]
  case inr.inr.inr.inr.inl => rw [smallPort_eq]
  all_goals rfl

theorem asciiPort_sends_one (s : State) (v : Data) : ∃ l, (asciiPort s v).out = s.out ++ l ∧ l.length ≤ 1 := by
  rw [asciiPort_eq]
  by_cases hc : s.cfg.hasConsole
  · exact ⟨[v.extractLsb' 0 8], by simp [hc], le_rfl⟩
  · exact ⟨[], by simp [hc], by simp⟩

/-- Two codes are processed, and NULL is omitted (R176). -/
theorem smallPort_sends_two (s : State) (v : Data) : ∃ l, (smallPort s v).out = s.out ++ l ∧ l.length ≤ 2 := by
  rw [smallPort_eq]
  by_cases hc : s.cfg.hasConsole
  · refine ⟨_, if_pos hc, (List.length_filterMap_le _ _).trans ?_⟩
    split <;> exact le_rfl
  · exact ⟨[], by simp [hc], by simp⟩

/-- A whole-word write appends at most two characters to `OUT`, and none but at a port. -/
theorem memWrite16_out {s u : State} {a : Addr} {x : Word} (h : memWrite16 s a x = .ok u) :
    ∃ l, u.out = s.out ++ l ∧ l.length ≤ 2 ∧ (l ≠ [] → a = 0x00A#12 ∨ a = 0x00B#12) := by
  rcases memWrite16_cases s a x with
    ⟨-, he⟩ | ⟨-, he⟩ | ⟨-, he⟩ | ⟨ha, he⟩ | ⟨ha, he⟩ | ⟨-, he⟩ | ⟨-, he⟩ | ⟨-, he⟩ <;>
    rw [he] at h <;> cases h
  case inr.inr.inr.inl =>
    obtain ⟨l, hl, hlen⟩ := asciiPort_sends_one s (dataOf x)
    exact ⟨l, hl, by omega, fun _ => .inl ha⟩
  case inr.inr.inr.inr.inl =>
    obtain ⟨l, hl, hlen⟩ := smallPort_sends_two s (dataOf x)
    exact ⟨l, hl, hlen, fun _ => .inr ha⟩
  all_goals exact ⟨[], by simp⟩

end Sys2Proof.Proofs
end

section
/-! PROOFS. What every step keeps: the invariant (10_state.md R32, R33) and the parameters (R35). -/

namespace Sys2Proof.Proofs

open Sys2Proof.Machine

/-- The invariant reads memory, the stack and the parameters only, and a shorter stack keeps it. -/
theorem inv_of_mem_stack_cfg {s t : State} (hs : s.Inv) (hm : t.mem = s.mem)
    (hl : t.stack.length ≤ s.stack.length) (hc : t.cfg = s.cfg) : t.Inv := by
  obtain ⟨hwf, hspace, hgap, hdepth⟩ := hs
  refine ⟨hm ▸ hwf, hm ▸ hspace, hm ▸ hgap, ?_⟩
  rw [hc]
  exact hl.trans hdepth

/-- A word write to a cell lists nothing at the addresses of the registers and ports: those are no cells (R52). -/
theorem gap_writeWord_of_isCell {s : State} {a : Addr} (hcell : IsCell s a) (x : Word)
    (hgap : ∀ c ∈ s.mem, c.1 < 16 ∨ 28 ≤ c.1) : ∀ c ∈ s.mem.writeWord a x, c.1 < 16 ∨ 28 ≤ c.1 := by
  intro c hc
  rcases Memory.mem_writeWord hc with hc | hc | hc
  · exact hgap c hc
  all_goals
    rw [byteAddress] at hc
    rcases hcell with h | h | ⟨h, -⟩ <;> omega

theorem exec_keeps_inv {i : Instr} {s t : State} (hs : s.Inv) (h : exec i s = .next t) : t.Inv := by
  rcases exec_next_cases h with ⟨op, rfl⟩ | ⟨_, _, _, _, _, rfl⟩ | ⟨a, x, hcell, rfl⟩ | ⟨_, _, _, _, _, rfl⟩ |
    ⟨l, w, hl, rfl⟩ | ⟨hlt, rfl⟩
  · exact hs
  · exact hs
  · obtain ⟨hwf, hspace, hgap, hdepth⟩ := hs
    exact ⟨Memory.wf_writeWord hwf a x, Memory.inSpace_writeWord hspace a x,
      gap_writeWord_of_isCell hcell x hgap, hdepth⟩
  · exact hs
  · exact inv_of_mem_stack_cfg hs rfl (by simp [hl]) rfl
  · obtain ⟨hwf, hspace, hgap, -⟩ := hs
    exact ⟨hwf, hspace, hgap, by simpa using hlt⟩

theorem exec_keeps_cfg {i : Instr} {s t : State} (h : exec i s = .next t) : t.cfg = s.cfg := by
  rcases exec_next_cases h with ⟨_, rfl⟩ | ⟨_, _, _, _, _, rfl⟩ | ⟨_, _, -, rfl⟩ | ⟨_, _, _, _, _, rfl⟩ |
    ⟨_, _, -, rfl⟩ | ⟨-, rfl⟩ <;> rfl

/-- Settles O50: the fetch touches nothing the invariant reads, and every instruction keeps it. -/
theorem stepKeepsTheInvariant : Obligations.StepKeepsTheInvariant := by
  intro s t hs h
  rcases step_next_exec h with rfl | ⟨w, k, he⟩
  · exact hs
  · exact exec_keeps_inv (s := { s with ir := w, portReads := k }) hs he

/-- Settles O51: reset keeps memory and the parameters and empties the stack. -/
theorem resetEstablishesTheInvariant : Obligations.ResetEstablishesTheInvariant :=
  ⟨by decide, fun s hs => inv_of_mem_stack_cfg hs (resetEvent_mem s) (by simp) (resetEvent_cfg s)⟩

/-- Settles O52: neither the fetch nor any instruction writes the parameters. -/
theorem stepKeepsTheParameters : Obligations.StepKeepsTheParameters := by
  intro s t h
  rcases step_next_exec h with rfl | ⟨w, k, he⟩
  · rfl
  · exact exec_keeps_cfg (s := { s with ir := w, portReads := k }) he

end Sys2Proof.Proofs
end

section
/-! PROOFS. What each instruction can do to the stack (10_state.md R32), the console output (R34) and the two flags
(R25, R26). -/

namespace Sys2Proof.Proofs

open Sys2Proof.Machine

/-- Which instructions can write the stack, `OUT` and the flags: any other keeps them, and so does the fault entry. -/
theorem exec_keeps {i : Instr} {s t : State} (h : exec i s = .next t) :
    ((∀ d, i ≠ .pop d ∧ i ≠ .push d) → t.stack = s.stack) ∧
    ((∀ a, i ≠ .store a ∧ i ≠ .sfull a) → t.out = s.out) ∧
    ((∀ d, i ≠ .halt d) → t.h = s.h) ∧
    ((∀ d, i ≠ .add d) → t.z = s.z) := by
  rcases (exec_next_iff i s t).1 h with ⟨-, rfl⟩ | ⟨-, h⟩
  · simp
  cases i with
  | reserved1 d | reserved2 d => exact h.elim
  | halt d | jump d | noop d | jumpz d | lshft n g | rshft n g | xor d | and d | add d =>
    obtain rfl := h
    simp
  | load a =>
    obtain ⟨w, k, -, rfl⟩ := h
    simp
  | store a =>
    obtain ⟨x, u, hu, rfl⟩ := ownEffect_store (.inl h)
    rw [memWrite16_frame hu]
    simp
  | sfull a =>
    obtain ⟨x, u, hu, rfl⟩ := ownEffect_store (.inr h)
    rw [memWrite16_frame hu]
    simp
  | pop d =>
    obtain ⟨l, w, -, rfl⟩ := h
    simp
  | push d =>
    obtain ⟨-, rfl⟩ := h
    simp

/-! ### The stack -/

/-- Settles O37: besides the fault, which keeps the stack, `POP` takes the word at its end and `PUSH` appends one. -/
theorem onlyPopAndPushChangeTheStack : Obligations.OnlyPopAndPushChangeTheStack := by
  intro i s t h
  obtain ⟨keepsStack, -⟩ := exec_keeps h
  have effect := (exec_next_iff i s t).1 h
  cases i with
  | pop d =>
    rcases effect with ⟨-, rfl⟩ | ⟨-, l, w, hs, rfl⟩
    · exact .inl rfl
    · exact .inr (.inl ⟨⟨d, rfl⟩, hs⟩)
  | push d =>
    rcases effect with ⟨-, rfl⟩ | ⟨-, -, rfl⟩
    · exact .inl rfl
    · exact .inr (.inr ⟨⟨d, rfl⟩, rfl⟩)
  | _ => exact .inl (keepsStack (by simp))

/-! ### The console output -/

/-- A `STORE` or `SFULL` faults, which keeps `OUT`, or sends what its write sends. -/
theorem exec_store_out {i : Instr} {a : Addr} {s t : State} (hi : i = .store a ∨ i = .sfull a)
    (h : exec i s = .next t) :
    ∃ l, t.out = s.out ++ l ∧ l.length ≤ 2 ∧ (l ≠ [] → a = 0x00A#12 ∨ a = 0x00B#12) := by
  rcases (exec_next_iff i s t).1 h with ⟨-, rfl⟩ | ⟨-, h⟩
  · exact ⟨[], by simp⟩
  · obtain ⟨x, u, hu, rfl⟩ := ownEffect_store (hi.imp (fun e => e ▸ h) (fun e => e ▸ h))
    rw [advance_out]
    exact memWrite16_out hu

/-- Settles O48: a store sends what its write sends, and no other instruction writes `OUT`. -/
theorem outputOnlyGrowsAndOnlyAtThePorts : Obligations.OutputOnlyGrowsAndOnlyAtThePorts := by
  intro i s t h
  by_cases hi : ∃ a, i = .store a ∨ i = .sfull a
  · obtain ⟨a, ha⟩ := hi
    obtain ⟨l, hl, hlen, hport⟩ := exec_store_out ha h
    refine ⟨l, hl, hlen, fun hne => ?_⟩
    rcases ha with rfl | rfl <;> rcases hport hne with rfl | rfl <;> simp
  · obtain ⟨-, keepsOut, -⟩ := exec_keeps h
    push Not at hi
    exact ⟨[], by simp [keepsOut hi]⟩

/-! ### The flags -/

/-- `SR.H` after an instruction: only an implemented `HALT` sets it, and nothing clears it. -/
theorem exec_h_iff {i : Instr} {s t : State} (h : exec i s = .next t) :
    t.h = true ↔ s.h = true ∨ ∃ d, i = .halt d ∧ implemented s.cfg 0x0#4 = true := by
  by_cases hi : ∃ d, i = .halt d
  · obtain ⟨d, rfl⟩ := hi
    rcases (exec_next_iff _ s t).1 h with ⟨hf, rfl⟩ | ⟨hf, rfl⟩
    · have himp : implemented s.cfg 0x0#4 = false := hf
      simp [himp]
    · have himp : implemented s.cfg 0x0#4 = true := eq_true_of_ne_false hf
      simp [himp]
  · obtain ⟨-, -, keepsH, -⟩ := exec_keeps h
    rw [keepsH (by simpa using hi), or_iff_left]
    rintro ⟨d, hd, -⟩
    exact hi ⟨d, hd⟩

/-- Settles O53: the step is the identity or the `exec` of the fetched word, where only `HALT` sets `SR.H`. -/
theorem onlyHaltSetsTheHaltFlag : Obligations.OnlyHaltSetsTheHaltFlag := by
  intro s t h
  refine ⟨?_, raiseFault_h s, resetEvent_h s⟩
  rcases step_next_cases h with ⟨hh, rfl⟩ | ⟨hh, w, u, hf, he⟩
  · simp [hh]
  · obtain ⟨v, hr, rfl⟩ := fetch_eq_ok_iff.1 hf
    obtain ⟨k, rfl⟩ := memRead_state hr
    simp [exec_h_iff he, hr]

/-- The flag `ADD` computes, as a number. -/
theorem zeroFlag_iff (acc : Word) : zeroFlag acc = true ↔ acc.toNat % 4096 = 0 := by
  simp [zeroFlag, BitVec.toNat_eq]

/-- Settles O54: an implemented `ADD` writes the flag of its sum, one that is not takes the fault, and nothing else
writes `SR.Z`. -/
theorem onlyAddWritesTheZeroFlag : Obligations.OnlyAddWritesTheZeroFlag := by
  intro i s t h
  by_cases hi : ∃ d, i = .add d
  · obtain ⟨d, rfl⟩ := hi
    rcases (exec_next_iff _ s t).1 h with ⟨hf, rfl⟩ | ⟨hf, rfl⟩
    · have himp : implemented s.cfg 0xB#4 = false := hf
      simp [himp]
    · have himp : implemented s.cfg 0xB#4 = true := eq_true_of_ne_false hf
      simp [himp, zeroFlag_iff]
  · obtain ⟨-, -, -, keepsZ⟩ := exec_keeps h
    exact ⟨fun hadd => absurd hadd.1 hi, fun _ => keepsZ (by simpa using hi)⟩

end Sys2Proof.Proofs
end

section
/-! PROOFS. `$TERMINAL_CONFIG` and `$STACK_SIZE` influence nothing (10_state.md R29, R30, D19, D31): every operation of the
machine commutes with putting other values into them. -/

namespace Sys2Proof.Proofs

open Sys2Proof.Machine

/-- The state with other values in `0x00C` and `0x00D`. -/
def withConfiguration (v w : Word) (s : State) : State := { s with terminalConfig := v, stackSize := w }

section

variable (v w : Word) {s : State}

@[simp] theorem withConfiguration_cfg : (withConfiguration v w s).cfg = s.cfg := rfl

@[simp] theorem withConfiguration_acc : (withConfiguration v w s).acc = s.acc := rfl

@[simp] theorem withConfiguration_z : (withConfiguration v w s).z = s.z := rfl

@[simp] theorem withConfiguration_stack : (withConfiguration v w s).stack = s.stack := rfl

/-! ### The read and the writes -/

theorem memRead_withConfiguration {a : Addr} (ha : a ≠ 0x00C#12 ∧ a ≠ 0x00D#12) :
    memRead (withConfiguration v w s) a =
      (memRead s a).map (fun p => (p.1, withConfiguration v w p.2)) := by
  obtain ⟨hc, hd⟩ := ha
  rcases regionOf_cases a with rfl | rfl | rfl | rfl | rfl | rfl | ⟨h, -⟩ | ⟨h, -⟩
  case inr.inr.inr.inr.inl => exact absurd rfl hc
  case inr.inr.inr.inr.inr.inl => exact absurd rfl hd
  case inr.inr.inr.inr.inr.inr.inl =>
    rw [memRead, memRead, h, withConfiguration_cfg]
    cases s.cfg.reservedCells <;> rfl
  case inr.inr.inr.inr.inr.inr.inr =>
    rw [memRead, memRead, h]
    rfl
  all_goals rfl

theorem asciiPort_withConfiguration (x : Data) :
    asciiPort (withConfiguration v w s) x = withConfiguration v w (asciiPort s x) := by
  rw [asciiPort_eq, asciiPort_eq]
  rfl

theorem smallPort_withConfiguration (x : Data) :
    smallPort (withConfiguration v w s) x = withConfiguration v w (smallPort s x) := by
  rw [smallPort_eq, smallPort_eq]
  rfl

theorem memWrite16_withConfiguration {a : Addr} (ha : a ≠ 0x00C#12 ∧ a ≠ 0x00D#12) (x : Word) :
    memWrite16 (withConfiguration v w s) a x = (memWrite16 s a x).map (withConfiguration v w) := by
  obtain ⟨hc, hd⟩ := ha
  rcases regionOf_cases a with rfl | rfl | rfl | rfl | rfl | rfl | ⟨h, -⟩ | ⟨h, -⟩
  case inr.inr.inl => exact congrArg Except.ok (asciiPort_withConfiguration v w (dataOf x))
  case inr.inr.inr.inl => exact congrArg Except.ok (smallPort_withConfiguration v w (dataOf x))
  case inr.inr.inr.inr.inl => exact absurd rfl hc
  case inr.inr.inr.inr.inr.inl => exact absurd rfl hd
  case inr.inr.inr.inr.inr.inr.inl =>
    rw [memWrite16, memWrite16, h, withConfiguration_cfg]
    cases s.cfg.reservedCells <;> rfl
  case inr.inr.inr.inr.inr.inr.inr =>
    rw [memWrite16, memWrite16, h]
    rfl
  all_goals rfl

theorem heldWord_withConfiguration {a : Addr} (ha : a ≠ 0x00C#12 ∧ a ≠ 0x00D#12) :
    heldWord (withConfiguration v w s) a = heldWord s a := by
  obtain ⟨hc, hd⟩ := ha
  rcases regionOf_cases a with rfl | rfl | rfl | rfl | rfl | rfl | ⟨h, -⟩ | ⟨h, -⟩
  case inr.inr.inr.inr.inl => exact absurd rfl hc
  case inr.inr.inr.inr.inr.inl => exact absurd rfl hd
  case inr.inr.inr.inr.inr.inr.inl | inr.inr.inr.inr.inr.inr.inr =>
    rw [heldWord, heldWord, h]
    rfl
  all_goals rfl

theorem memWrite12_withConfiguration {a : Addr} (ha : a ≠ 0x00C#12 ∧ a ≠ 0x00D#12) (x : Data) :
    memWrite12 (withConfiguration v w s) a x = (memWrite12 s a x).map (withConfiguration v w) := by
  rw [memWrite12_eq_memWrite16, memWrite12_eq_memWrite16, heldWord_withConfiguration v w ha,
    memWrite16_withConfiguration v w ha]

/-! ### The stack -/

theorem popStack_withConfiguration :
    popStack (withConfiguration v w s) = (popStack s).map (fun p => (p.1, withConfiguration v w p.2)) := by
  rw [popStack, popStack, withConfiguration_stack]
  cases s.stack.getLast? <;> rfl

theorem pushStack_withConfiguration (x : Word) :
    pushStack (withConfiguration v w s) x = (pushStack s x).map (withConfiguration v w) := by
  rw [pushStack, pushStack, withConfiguration_stack, withConfiguration_cfg]
  split <;> rfl

/-! ### Every instruction -/

/-- A defined instruction commutes with the change where its own effect does: the fault entry does. -/
theorem ifImplemented_withConfiguration {op : Opcode} {e e' : Host.Outcome State Fault Refusal}
    (he : e' = mapNext (withConfiguration v w) e) :
    ifImplemented op (withConfiguration v w s) e' = mapNext (withConfiguration v w) (ifImplemented op s e) := by
  rcases ifImplemented_cases s op e with ⟨h, hs⟩ | ⟨h, hs⟩ <;> rw [hs]
  · rw [ifImplemented_true (s := withConfiguration v w s) h, he]
  · exact ifImplemented_false (s := withConfiguration v w s) h

end

/-- Settles O55: each operation an instruction is made of commutes with the change of the two registers. -/
theorem configurationCellsInfluenceNothing : Obligations.ConfigurationCellsInfluenceNothing := by
  intro i s v w hi
  change exec i (withConfiguration v w s) = mapNext (withConfiguration v w) (exec i s)
  cases i with
  | halt d | jump d | noop d | lshft n g | rshft n g | xor d | and d | add d =>
    exact ifImplemented_withConfiguration v w rfl
  | jumpz d =>
    refine ifImplemented_withConfiguration v w ?_
    rw [withConfiguration_z]
    cases s.z <;> rfl
  | load a =>
    refine ifImplemented_withConfiguration v w ?_
    rw [memRead_withConfiguration v w (hi a (.inl rfl))]
    cases memRead s a <;> rfl
  | store a =>
    refine ifImplemented_withConfiguration v w ?_
    rw [withConfiguration_acc, memWrite12_withConfiguration v w (hi a (.inr (.inl rfl)))]
    cases memWrite12 s a (dataOf s.acc) <;> rfl
  | sfull a =>
    refine ifImplemented_withConfiguration v w ?_
    rw [withConfiguration_acc, memWrite16_withConfiguration v w (hi a (.inr (.inr rfl)))]
    cases memWrite16 s a s.acc <;> rfl
  | reserved1 d =>
    rw [exec, exec, execReserved1, execReserved1, withConfiguration_cfg]
    split <;> rfl
  | reserved2 d =>
    rw [exec, exec, execReserved2, execReserved2, withConfiguration_cfg]
    split <;> rfl
  | pop d =>
    refine ifImplemented_withConfiguration v w ?_
    rw [popStack_withConfiguration]
    cases popStack s <;> rfl
  | push d =>
    refine ifImplemented_withConfiguration v w ?_
    rw [withConfiguration_acc, pushStack_withConfiguration]
    cases pushStack s s.acc <;> rfl

end Sys2Proof.Proofs
end

section
/-! PROOFS. The fetched word and its encoding (10_state.md R22, R39; 30_encoding.md R81 to R84). -/

namespace Sys2Proof.Proofs

open Sys2Proof.Machine

theorem shiftOperand_shiftFields (d : Data) : shiftOperand (shiftCount d) (shiftSegment d) = d := by
  have hd := d.isLt
  refine BitVec.eq_of_toNat_eq ?_
  rw [shiftOperand_toNat, shiftCount_eq, shiftSegment_eq]
  split
  · rw [show Segment.data.bit.toNat = 1 from rfl]
    omega
  · rw [show Segment.whole.bit.toNat = 0 from rfl]
    omega

theorem operandOf_decodeWord (w : Word) : operandOf (decodeWord w) = dataOf w := by
  rw [decodeWord]
  split <;> simp only [operandOf, shiftOperand_shiftFields]

/-- The INST segment is known from its four bits, which the decoder reads (R84). -/
theorem instOf_eq_of_bits {w : Word} {op : Opcode} (h15 : w.getLsbD 15 = op.getLsbD 3)
    (h14 : w.getLsbD 14 = op.getLsbD 2) (h13 : w.getLsbD 13 = op.getLsbD 1) (h12 : w.getLsbD 12 = op.getLsbD 0) :
    instOf w = op := by
  refine BitVec.eq_of_getLsbD_eq fun k hk => ?_
  rw [instOf, BitVec.getLsbD_extractLsb']
  interval_cases k
  exacts [h12, h13, h14, h15]

theorem opcodeOf_decodeWord (w : Word) : opcodeOf (decodeWord w) = instOf w := by
  symm
  rw [decodeWord]
  split <;> next h15 h14 h13 h12 =>
    rw [opcodeOf]
    exact instOf_eq_of_bits (h15.trans (by decide)) (h14.trans (by decide)) (h13.trans (by decide))
      (h12.trans (by decide))

/-- Every word is the encoding of the instruction it decodes to. -/
theorem encode_decodeWord (w : Word) : encode (decodeWord w) = w := by
  rw [encode, opcodeOf_decodeWord, operandOf_decodeWord, joinSegments_segments]

/-! ### The step of a running machine -/

/-- Settles O8: the fetch is the read at `PC`. -/
theorem stepFetchesThroughMemRead : Obligations.StepFetchesThroughMemRead := fun _ hh =>
  ⟨fun _ t hr => step_of_running hh (fetch_eq_ok_iff.2 ⟨t, hr, rfl⟩), fun _ hr => step_eq_refused hh hr⟩

/-- Settles O7: a cell reads as the word of its two bytes, which is the encoding of what they decode to. -/
theorem stepRunsDecodedInstruction : Obligations.StepRunsDecodedInstruction := by
  intro s i hh hcell _ hdec
  have hi : decodeWord (s.mem.readWord s.pc) = i := by
    rw [decode] at hdec
    cases hdec
    rfl
  have hstep := step_of_running hh (fetch_eq_ok_iff.2 ⟨s, memRead_cell hcell, rfl⟩)
  rw [hstep, ← hi, encode_decodeWord]
  rfl

/-- Settles O10: the 12-bit sum wraps as the number does. -/
theorem nextPcWrapsAtTheTop : Obligations.NextPcWrapsAtTheTop := nextPc_toNat

end Sys2Proof.Proofs
end

section
/-! PROOFS. Accesses to the mapped registers (10_state.md R27 to R30) and the reserved addresses (R31), and reset (R36). -/

namespace Sys2Proof.Proofs

open Sys2Proof.Machine

/-! ### The memory instructions, from their access -/

section

variable {s : State} {a : Addr}

theorem exec_load_refused {r : Refusal} (himp : implemented s.cfg 0x4#4 = true) (h : memRead s a = .error r) :
    exec (.load a) s = .refused r := by
  rw [exec, execLoad, ifImplemented_true himp, h]

theorem exec_store_refused {r : Refusal} (himp : implemented s.cfg 0x5#4 = true)
    (h : memWrite12 s a (dataOf s.acc) = .error r) : exec (.store a) s = .refused r := by
  rw [exec, execStore, ifImplemented_true himp, h]

theorem exec_sfull_refused {r : Refusal} (himp : implemented s.cfg 0xA#4 = true)
    (h : memWrite16 s a s.acc = .error r) : exec (.sfull a) s = .refused r := by
  rw [exec, execSfull, ifImplemented_true himp, h]

theorem exec_store_of_write {u : State} (himp : implemented s.cfg 0x5#4 = true)
    (h : memWrite12 s a (dataOf s.acc) = .ok u) : exec (.store a) s = .next (advance u) := by
  rw [exec, execStore, ifImplemented_true himp, h]

theorem exec_sfull_of_write {u : State} (himp : implemented s.cfg 0xA#4 = true)
    (h : memWrite16 s a s.acc = .ok u) : exec (.sfull a) s = .next (advance u) := by
  rw [exec, execSfull, ifImplemented_true himp, h]

/-! ### Accesses without a meaning -/

theorem memRead_reserved (ha : regionOf a = .reserved) (hc : s.cfg.reservedCells = .refuse) :
    memRead s a = .error (.reservedAddress a) := by
  simp [memRead, ha, hc]

theorem memWrite16_reserved (ha : regionOf a = .reserved) (hc : s.cfg.reservedCells = .refuse) (x : Word) :
    memWrite16 s a x = .error (.reservedAddress a) := by
  simp [memWrite16, ha, hc]

theorem memWrite12_reserved (ha : regionOf a = .reserved) (hc : s.cfg.reservedCells = .refuse) (x : Data) :
    memWrite12 s a x = .error (.reservedAddress a) := by
  rw [memWrite12_eq_memWrite16, memWrite16_reserved ha hc]

end

/-- Settles O24: each of the three accesses is refused there, and with it the instruction or the fetch. -/
theorem reservedAddressesAreRefused : Obligations.ReservedAddressesAreRefused := by
  intro d s hd hc
  have hreg : regionOf d = .reserved := (regionOf_reserved_iff d).2 hd
  exact ⟨fun himp => exec_load_refused himp (memRead_reserved hreg hc),
    fun himp => exec_store_refused himp (memWrite12_reserved hreg hc _),
    fun himp => exec_sfull_refused himp (memWrite16_reserved hreg hc _),
    fun hh => step_eq_refused (s := { s with pc := d }) hh (memRead_reserved hreg hc)⟩

/-! ### Stores to the mapped registers -/

theorem dataOf_eq_ofNat (x : Word) : dataOf x = BitVec.ofNat 12 (x.toNat % 4096) :=
  BitVec.eq_of_toNat_eq (by simp)

theorem withData_dataOf_eq_ofNat (c x : Word) :
    withData c (dataOf x) = BitVec.ofNat 16 (c.toNat / 4096 * 4096 + x.toNat % 4096) := by
  rw [← dataOf_toNat, ← withData_toNat, BitVec.ofNat_toNat, BitVec.setWidth_eq]

/-- Settles O23: each store is its write and the advance of `PC`; the register's value is written as a number. -/
theorem storesWriteTheMappedRegisters : Obligations.StoresWriteTheMappedRegisters := by
  intro s
  refine ⟨fun himp => ?_, fun himp => ?_⟩
  · rw [← dataOf_eq_ofNat]
    exact ⟨exec_sfull_of_write (u := s.setInterruptReason s.acc) himp rfl,
      exec_sfull_of_write (u := s.setInterruptReturn (dataOf s.acc)) himp rfl,
      exec_sfull_of_write (u := s.setTerminalConfig s.acc) himp rfl,
      exec_sfull_of_write (u := s.setStackSize s.acc) himp rfl⟩
  · rw [← dataOf_eq_ofNat]
    simp only [← withData_dataOf_eq_ofNat]
    exact ⟨exec_store_of_write (u := s.setInterruptReason (withData s.interruptReason (dataOf s.acc))) himp rfl,
      exec_store_of_write (u := s.setInterruptReturn (dataOf s.acc)) himp rfl,
      exec_store_of_write (u := s.setTerminalConfig (withData s.terminalConfig (dataOf s.acc))) himp rfl,
      exec_store_of_write (u := s.setStackSize (withData s.stackSize (dataOf s.acc))) himp rfl⟩

/-! ### Reset -/

theorem stackSizeAtReset_toNat (c : Config) : (stackSizeAtReset c).toNat = min c.stackDepth 65535 := by
  rw [stackSizeAtReset, BitVec.toNat_ofNat]
  omega

/-- Settles O49: the fields after reset, one by one. -/
theorem resetSetsTheStatedValues : Obligations.ResetSetsTheStatedValues :=
  ⟨resetEvent_reset, by decide, fun s =>
    ⟨resetEvent_pc s, resetEvent_h s, resetEvent_z s, stackSizeAtReset_toNat s.cfg, resetEvent_stack s,
      resetEvent_out s, resetEvent_interruptReason s, resetEvent_interruptReturn s⟩⟩

end Sys2Proof.Proofs
end

section
/-! PROOFS. The read and the two writes, address by address (20_memory.md R56 to R58), and a stored word that is executed
next (R65). -/

namespace Sys2Proof.Proofs

open Sys2Proof.Machine

/-! ### Words and cells as numbers -/

theorem cellNumber_eq_readWord_toNat (m : Memory) (a : Addr) : cellNumber m a = (m.readWord a).toNat := by
  rw [cellNumber, Memory.readWord, wordOfBytes_toNat]
  omega

theorem ofNat_cellNumber (m : Memory) (a : Addr) : BitVec.ofNat 16 (cellNumber m a) = m.readWord a := by
  rw [cellNumber_eq_readWord_toNat, BitVec.ofNat_toNat, BitVec.setWidth_eq]

theorem zextData_eq_ofNat (d : Data) : zextData d = BitVec.ofNat 16 d.toNat := by
  rw [← zextData_toNat, BitVec.ofNat_toNat, BitVec.setWidth_eq]

theorem withData_eq_ofNat (c : Word) (v : Data) :
    withData c v = BitVec.ofNat 16 (c.toNat / 4096 * 4096 + v.toNat) := by
  rw [← withData_toNat, BitVec.ofNat_toNat, BitVec.setWidth_eq]

theorem cellNumber_writeWord_same (m : Memory) (a : Addr) (w : Word) :
    cellNumber (m.writeWord a w) a = w.toNat := by
  rw [cellNumber_eq_readWord_toNat, Memory.readWord_writeWord_same]

theorem readByte_writeWord_other (m : Memory) {a : Addr} (w : Word) {b : Nat}
    (hlow : b ≠ byteAddress a) (hhigh : b ≠ byteAddress a + 1) :
    (m.writeWord a w).readByte b = m.readByte b := by
  rw [Memory.readByte_writeWord, if_neg hhigh.symm, if_neg hlow.symm]

/-! ### Writes to a cell -/

section

variable {s : State} {a : Addr}

/-- A cell is an ordinary address, or a reserved one on an implementation with cells there (R52, D15). -/
theorem regionOf_of_isCell (h : IsCell s a) :
    regionOf a = .ordinary ∨ regionOf a = .reserved ∧ s.cfg.reservedCells = .ram := by
  by_cases ho : a.toNat < 8 ∨ 16 ≤ a.toNat
  · exact .inl ((regionOf_ordinary_iff a).2 ho)
  · obtain ⟨h14, hc⟩ : 14 ≤ a.toNat ∧ s.cfg.reservedCells = .ram := by tauto
    have ha : a.toNat = 14 ∨ a.toNat = 15 := by omega
    exact .inr ⟨(regionOf_reserved_iff a).2 (ha.imp BitVec.eq_of_toNat_eq BitVec.eq_of_toNat_eq), hc⟩

theorem memWrite16_cell (h : IsCell s a) (v : Word) :
    memWrite16 s a v = .ok (s.setMem (s.mem.writeWord a v)) := by
  rw [memWrite16]
  rcases regionOf_of_isCell h with hr | ⟨hr, hc⟩
  · rw [hr]
  · rw [hr, hc]

theorem heldWord_cell (h : IsCell s a) : heldWord s a = s.mem.readWord a := by
  rw [heldWord]
  rcases regionOf_of_isCell h with hr | ⟨hr, -⟩ <;> rw [hr]

theorem memWrite12_cell (h : IsCell s a) (v : Data) :
    memWrite12 s a v = .ok (s.setMem (s.mem.writeWord a (withData (s.mem.readWord a) v))) := by
  rw [memWrite12_eq_memWrite16, heldWord_cell h, memWrite16_cell h]

end

/-! ### Address by address -/

/-- Settles O12: a cell reads as its word, and the read of a mapped address is that of its region. -/
theorem memReadByAddress : Obligations.MemReadByAddress := by
  intro s a
  rw [ofNat_cellNumber, ← zextData_eq_ofNat]
  refine ⟨memRead_cell, ?_, ?_, ?_, ?_, ?_,
    fun ha hc => memRead_reserved ((regionOf_reserved_iff a).2 ha) hc⟩
  case refine_3 => rintro (rfl | rfl) <;> rfl
  all_goals rintro rfl; rfl

/-- Settles O13: a cell takes the word and nothing else of memory changes; the write of a mapped address is that of its
region. -/
theorem wholeWordWriteByAddress : Obligations.WholeWordWriteByAddress := by
  intro s a v
  rw [← dataOf_eq_ofNat]
  refine ⟨fun hcell => ?_, ?_, ?_, ?_, ?_, ?_, ?_,
    fun ha hc => memWrite16_reserved ((regionOf_reserved_iff a).2 ha) hc v⟩
  · exact ⟨_, memWrite16_cell hcell v, rfl, cellNumber_writeWord_same s.mem a v,
      fun _ => readByte_writeWord_other s.mem v⟩
  all_goals rintro rfl; rfl

/-- Settles O14: as for the whole word, where the word written has the INST segment of the word held. -/
theorem dataWriteByAddress : Obligations.DataWriteByAddress := by
  intro s a v
  simp only [← withData_eq_ofNat]
  refine ⟨fun hcell => ?_, ?_, ?_, ?_, ?_, ?_, ?_,
    fun ha hc => memWrite12_reserved ((regionOf_reserved_iff a).2 ha) hc v⟩
  · refine ⟨_, memWrite12_cell hcell v, rfl, ?_, fun _ => readByte_writeWord_other s.mem _⟩
    rw [State.setMem_mem, cellNumber_writeWord_same, withData_toNat, cellNumber_eq_readWord_toNat]
  all_goals rintro rfl; rfl

/-! ### What a write leaves as it was -/

/-- A whole-word write changes no word of memory but the one at its address. -/
theorem memWrite16_keeps_words {s t : State} {a : Addr} {v : Word} (h : memWrite16 s a v = .ok t) {b : Addr}
    (hab : a ≠ b) : t.mem.readWord b = s.mem.readWord b := by
  rcases memWrite16_cases s a v with
    ⟨-, he⟩ | ⟨-, he⟩ | ⟨-, he⟩ | ⟨-, he⟩ | ⟨-, he⟩ | ⟨-, he⟩ | ⟨-, he⟩ | ⟨-, he⟩ <;>
    rw [he] at h <;> cases h
  case inl => exact Memory.readWord_writeWord_other s.mem v hab
  case inr.inr.inr.inl => rw [asciiPort_eq]
  case inr.inr.inr.inr.inl => rw [smallPort_eq]
  all_goals rfl

/-- A whole-word write changes no mapped register but the one at its address. -/
theorem memWrite16_keeps_registers {s t : State} {a : Addr} {v : Word} (h : memWrite16 s a v = .ok t) :
    (a ≠ 0x008#12 → t.interruptReason = s.interruptReason) ∧
    (a ≠ 0x009#12 → t.interruptReturn = s.interruptReturn) ∧
    (a ≠ 0x00C#12 → t.terminalConfig = s.terminalConfig) ∧
    (a ≠ 0x00D#12 → t.stackSize = s.stackSize) := by
  rcases memWrite16_cases s a v with
    ⟨-, he⟩ | ⟨ha, he⟩ | ⟨ha, he⟩ | ⟨-, he⟩ | ⟨-, he⟩ | ⟨ha, he⟩ | ⟨ha, he⟩ | ⟨-, he⟩ <;>
    rw [he] at h <;> cases h
  case inr.inr.inr.inl => simp [asciiPort_eq]
  case inr.inr.inr.inr.inl => simp [smallPort_eq]
  case inl => simp
  all_goals simp [ha]

/-- Settles O15: what a read at `b` gives is a word of memory, a register or the free value of the counter, and the
write at another address keeps each of them. -/
theorem writeLeavesOtherAddresses : Obligations.WriteLeavesOtherAddresses := by
  intro s t a b v h hab
  obtain ⟨keepsReason, keepsReturn, keepsTerminal, keepsStackSize⟩ := memWrite16_keeps_registers h
  have hcfg : t.cfg = s.cfg := by rw [memWrite16_frame h]
  have hports : t.portReads = s.portReads := by rw [memWrite16_frame h]
  have hword : t.mem.readWord b = s.mem.readWord b := memWrite16_keeps_words h hab
  rcases regionOf_cases b with rfl | rfl | rfl | rfl | rfl | rfl | ⟨hr, -⟩ | ⟨hr, -⟩
  · exact congrArg Except.ok (keepsReason hab)
  · exact congrArg (fun x => Except.ok (zextData x)) (keepsReturn hab)
  · exact congrArg (fun k => Except.ok (Config.freeWord k)) hports
  · exact congrArg (fun k => Except.ok (Config.freeWord k)) hports
  · exact congrArg Except.ok (keepsTerminal hab)
  · exact congrArg Except.ok (keepsStackSize hab)
  · rw [memRead, memRead, hr, hcfg, hword]
    cases s.cfg.reservedCells <;> rfl
  · rw [memRead, memRead, hr, hword]
    rfl

/-! ### Executing a stored word -/

/-- A running machine whose `PC` names a cell executes the word the cell holds. -/
theorem step_at_cell {s : State} (hh : s.h = false) (hcell : IsCell s s.pc) :
    step s = exec (decodeWord (s.mem.readWord s.pc)) { s with ir := s.mem.readWord s.pc } :=
  step_of_running hh (fetch_eq_ok_iff.2 ⟨s, memRead_cell hcell, rfl⟩)

/-- After a word is written to the cell at the next address, the next step executes that word. -/
theorem step_advance_writeWord_next {s : State} (hh : s.h = false) (hcell : IsCell s (nextPc s.pc)) (w : Word) :
    step (advance (s.setMem (s.mem.writeWord (nextPc s.pc) w))) =
      exec (decodeWord w) { advance (s.setMem (s.mem.writeWord (nextPc s.pc) w)) with ir := w } := by
  have hstep := step_at_cell (s := advance (s.setMem (s.mem.writeWord (nextPc s.pc) w))) hh hcell
  rwa [advance_mem, advance_pc, State.setMem_mem, State.setMem_pc, Memory.readWord_writeWord_same] at hstep

/-- Settles O25: each store writes its word to the cell and advances `PC` to it. -/
theorem storedWordIsFetchedNext : Obligations.StoredWordIsFetchedNext := by
  intro s hh hcell
  refine ⟨fun himp => ?_, fun himp => ?_⟩
  · exact ⟨_, exec_sfull_of_write himp (memWrite16_cell hcell s.acc), step_advance_writeWord_next hh hcell s.acc⟩
  · refine ⟨_, _, exec_store_of_write himp (memWrite12_cell hcell _), ?_, step_advance_writeWord_next hh hcell _⟩
    rw [withData_dataOf_eq_ofNat, cellNumber_eq_readWord_toNat]

end Sys2Proof.Proofs
end

section
/-! PROOFS. Decoding and encoding are inverse (30_encoding.md R81 to R84), and ignored operands (R85). -/

namespace Sys2Proof.Proofs

open Sys2Proof.Machine

/-! ### The fields of an encoded word -/

/-- Bits 15 to 12 of a word put together from its segments are those of the opcode (R81). -/
theorem getLsbD_joinSegments_inst (op : Opcode) (d : Data) (k : Nat) :
    (joinSegments op d).getLsbD (12 + k) = op.getLsbD k := by
  rw [joinSegments, BitVec.getLsbD_append, if_neg (by omega), Nat.add_sub_cancel_left]

/-- The decoder names the row of an instruction's word by the four bits of its opcode (R84). -/
theorem getLsbD_encode_inst (i : Instr) :
    (encode i).getLsbD 15 = (opcodeOf i).getLsbD 3 ∧ (encode i).getLsbD 14 = (opcodeOf i).getLsbD 2 ∧
      (encode i).getLsbD 13 = (opcodeOf i).getLsbD 1 ∧ (encode i).getLsbD 12 = (opcodeOf i).getLsbD 0 :=
  ⟨getLsbD_joinSegments_inst _ _ 3, getLsbD_joinSegments_inst _ _ 2, getLsbD_joinSegments_inst _ _ 1,
    getLsbD_joinSegments_inst _ _ 0⟩

@[simp] theorem dataOf_encode (i : Instr) : dataOf (encode i) = operandOf i := dataOf_joinSegments _ _

/-- A count that fits in 11 bits is kept (R83). -/
theorem shiftCount_shiftOperand {n : Nat} (hn : n < 2048) (g : Segment) : shiftCount (shiftOperand n g) = n := by
  rw [shiftCount_eq, shiftOperand_toNat]
  have := g.bit.isLt
  omega

@[simp] theorem shiftSegment_shiftOperand (n : Nat) (g : Segment) : shiftSegment (shiftOperand n g) = g := by
  rw [shiftSegment_eq, shiftOperand_toNat]
  cases g <;> simp [Segment.bit]

/-! ### Decoding what is encoded -/

/-- Only the shift rows need well-formedness: their count must survive the 11-bit field. -/
theorem decodeWord_encode {i : Instr} (hi : i.wellFormed = true) : decodeWord (encode i) = i := by
  obtain ⟨h15, h14, h13, h12⟩ := getLsbD_encode_inst i
  rw [decodeWord, h15, h14, h13, h12, dataOf_encode]
  cases i
  case lshft n g | rshft n g =>
    simp [opcodeOf, operandOf, shiftCount_shiftOperand (of_decide_eq_true hi), -shiftCount_eq]
  all_goals simp [opcodeOf, operandOf]

/-- The two bytes of a word, as memory holds them (log 5), decode as the word does. -/
theorem decode_bytes (w : Word) (rest : List Byte) :
    decode (lowByte w :: highByte w :: rest) = .ok (decodeWord w, rest) := by
  rw [decode, wordOfBytes_bytes]

/-- Settles O3: the decoder reads back opcode and operand, and the bytes of a word are put together to that word. -/
theorem decodeOfEncodeIsTheInstruction : Obligations.DecodeOfEncodeIsTheInstruction := by
  intro i rest hi
  have hword := decodeWord_encode hi
  refine ⟨hword, ?_⟩
  calc decode (encodeBytes i ++ rest)
      _ = .ok (decodeWord (encode i), rest) := decode_bytes (encode i) rest
      _ = .ok (i, rest) := by rw [hword]

/-! ### The row of a word -/

theorem ofNat_eq_joinSegments {op operand : Nat} (hd : operand < 4096) :
    BitVec.ofNat 16 (op * 4096 + operand) = joinSegments (BitVec.ofNat 4 op) (BitVec.ofNat 12 operand) := by
  refine BitVec.eq_of_toNat_eq ?_
  simp only [joinSegments_toNat, BitVec.toNat_ofNat]
  omega

/-- The word `op * 4096 + operand` stands for any well-formed instruction with that opcode and operand (R81). -/
theorem decodeWord_ofNat {i : Instr} {op operand : Nat} (hd : operand < 4096)
    (hi : i.wellFormed = true) (hiop : opcodeOf i = BitVec.ofNat 4 op) (hid : operandOf i = BitVec.ofNat 12 operand) :
    decodeWord (BitVec.ofNat 16 (op * 4096 + operand)) = i := by
  rw [ofNat_eq_joinSegments hd, ← hiop, ← hid]
  exact decodeWord_encode hi

/-- The shift fields of an operand given as a number (R83). -/
theorem shiftOperand_div_mod {operand : Nat} (hd : operand < 4096) :
    shiftOperand (operand / 2) (if operand % 2 = 1 then .data else .whole) = BitVec.ofNat 12 operand := by
  have h := shiftOperand_shiftFields (BitVec.ofNat 12 operand)
  rwa [shiftCount_eq, shiftSegment_eq, BitVec.toNat_ofNat, Nat.mod_eq_of_lt hd] at h

/-- Settles O2: each row's instruction has the word's opcode and operand, so the word is its encoding. -/
theorem everyWordDecodesToItsRow : Obligations.EveryWordDecodesToItsRow := by
  intro op operand _ hd w d g
  have hshift : operandOf (.lshft (operand / 2) g) = d := shiftOperand_div_mod hd
  have hcount : decide (operand / 2 < 2048) = true := decide_eq_true (by omega)
  refine ⟨?_, ?_, ?_, ?_, ?_, ?_, ?_, ?_, ?_, ?_, ?_, ?_, ?_, ?_, ?_, ?_⟩ <;> rintro rfl
  -- Rows 0x6 and 0x7, the two shifts.
  case refine_7 | refine_8 => exact decodeWord_ofNat hd hcount rfl hshift
  all_goals exact decodeWord_ofNat hd rfl rfl rfl

/-! ### Encoding what is decoded -/

/-- The 11-bit count field of a word is below 2048 (R83). -/
theorem shiftCount_lt (d : Data) : shiftCount d < 2048 := BitVec.isLt _

theorem decodeWord_wellFormed (w : Word) : (decodeWord w).wellFormed = true := by
  rw [decodeWord]
  split
  -- Rows 0x6 and 0x7, the two shifts.
  case h_7 | h_8 => exact decide_eq_true (shiftCount_lt _)
  all_goals rfl

/-- Settles O4: the count field bounds the count, and both segments are given back. -/
theorem encodeOfDecodeIsTheWord : Obligations.EncodeOfDecodeIsTheWord := fun w =>
  ⟨decodeWord_wellFormed w, encode_decodeWord w⟩

/-! ### Single words, and ignored operands -/

/-- Settles O5: the decoder is evaluated on each of the sixteen words. -/
theorem writtenOutWordsDecode : Obligations.WrittenOutWordsDecode := by
  unfold Obligations.WrittenOutWordsDecode
  decide

/-- Settles O6: the meaning of each of the six rows drops its operand (R85), so both sides are the same term. -/
theorem ignoredOperandsHaveNoEffect : Obligations.IgnoredOperandsHaveNoEffect := fun _ _ _ =>
  ⟨rfl, rfl, rfl, rfl, rfl, rfl⟩

end Sys2Proof.Proofs
end

section
/-! PROOFS. The control instructions `HALT`, `JUMP`, `JUMPZ`, `NOOP`: effect, encoding and frame (40_control.md R100 to
R103). -/

namespace Sys2Proof.Proofs

open Sys2Proof.Machine

/-! ### An implemented instruction has its own effect -/

/-- R152: of the defined instructions only those not implemented fault. -/
theorem not_takesFault_of_implemented {i : Instr} {s : State} (himp : implemented s.cfg (opcodeOf i) = true)
    (hdef : ∀ d, i ≠ .reserved1 d ∧ i ≠ .reserved2 d) : ¬ TakesFault i s := by
  cases i with
  | reserved1 d | reserved2 d => simp at hdef
  | _ => exact ne_false_of_eq_true himp

theorem exec_next_iff_ownEffect {i : Instr} {s t : State} (himp : implemented s.cfg (opcodeOf i) = true)
    (hdef : ∀ d, i ≠ .reserved1 d ∧ i ≠ .reserved2 d) : exec i s = .next t ↔ OwnEffect i s t := by
  simp [exec_next_iff, not_takesFault_of_implemented himp hdef]

/-! ### Words and addresses -/

/-- The word `op * 4096 + d` stands for any well-formed instruction with opcode `op` and operand `d` (R81). -/
theorem decodeWord_ofNat_operand {i : Instr} {op : Nat} {d : Data} (hi : i.wellFormed = true)
    (hiop : opcodeOf i = BitVec.ofNat 4 op) (hid : operandOf i = d) :
    decodeWord (BitVec.ofNat 16 (op * 4096 + d.toNat)) = i :=
  decodeWord_ofNat d.isLt hi hiop (by simpa using hid)

/-- `next(PC)` as a number modulo 4096 (R21, D2). -/
theorem nextPc_eq_ofNat (a : Addr) : nextPc a = BitVec.ofNat 12 ((a.toNat + 1) % 4096) := by
  rw [← nextPc_toNat, BitVec.ofNat_toNat, BitVec.setWidth_eq]

/-! ### The effects -/

/-- Settles O16: the state stated is `HALT`'s own effect. -/
theorem haltSetsTheHaltFlag : Obligations.HaltSetsTheHaltFlag := by
  intro d s himp
  exact (exec_next_iff_ownEffect (i := .halt d) himp (by simp)).2 rfl

/-- Settles O17: the word is the encoding of `JUMP`, whose own effect is the state stated. -/
theorem jumpSetsThePc : Obligations.JumpSetsThePc := by
  intro d s himp
  refine ⟨decodeWord_ofNat_operand (op := 0x2) rfl rfl rfl, ?_⟩
  exact (exec_next_iff_ownEffect (i := .jump d) himp (by simp)).2 rfl

/-- Settles O18: the flag selects which `PC` is in `JUMPZ`'s own effect. -/
theorem jumpzFollowsTheZeroFlag : Obligations.JumpzFollowsTheZeroFlag := by
  intro d s himp
  have effect {t : State} : exec (.jumpz d) s = .next t ↔ t = { s with pc := if s.z then d else nextPc s.pc } :=
    exec_next_iff_ownEffect (i := .jumpz d) himp (by simp)
  refine ⟨decodeWord_ofNat_operand (op := 0x3) rfl rfl rfl, fun hz => ?_, fun hz => ?_⟩
  · exact effect.2 (by rw [if_pos hz])
  · exact effect.2 (by rw [if_neg (ne_true_of_eq_false hz)])

/-- Settles O19: `NOOP`'s own effect is `next(PC)`, which is the sum modulo 4096. -/
theorem noopOnlyAdvances : Obligations.NoopOnlyAdvances := by
  intro d s himp
  rw [← nextPc_eq_ofNat]
  exact (exec_next_iff_ownEffect (i := .noop d) himp (by simp)).2 rfl

/-! ### The frame -/

/-- A control instruction writes `PC`, and `HALT` the halt flag (R100 to R103). -/
theorem exec_control_writes_pc_and_h {d : Data} {i : Instr} {s t : State}
    (hi : i ∈ [.halt d, .jump d, .jumpz d, .noop d]) (himp : implemented s.cfg (opcodeOf i) = true)
    (h : exec i s = .next t) : ∃ a b, t = { s with pc := a, h := b } ∧ (i ≠ .halt d → b = s.h) := by
  simp only [List.mem_cons, List.not_mem_nil, or_false] at hi
  rcases hi with rfl | rfl | rfl | rfl
  · exact ⟨_, true, (exec_next_iff_ownEffect himp (by simp)).1 h, fun hne => absurd rfl hne⟩
  all_goals exact ⟨_, s.h, (exec_next_iff_ownEffect himp (by simp)).1 h, fun _ => rfl⟩

/-- Settles O56: the fields it names are neither `PC` nor the halt flag. -/
theorem frameOfControlInstructions : Obligations.FrameOfControlInstructions := by
  intro d i s t hi himp h
  obtain ⟨a, b, rfl, hb⟩ := exec_control_writes_pc_and_h hi himp h
  exact ⟨rfl, rfl, rfl, hb, rfl, rfl, rfl, rfl, rfl, rfl, rfl, rfl, fun _ => rfl⟩

end Sys2Proof.Proofs
end

section
/-! PROOFS. The memory access instructions `LOAD`, `STORE`, `SFULL`: effect and frame (41_memory_access.md R110 to
R112). -/

namespace Sys2Proof.Proofs

open Sys2Proof.Machine

/-! ### The effects -/

/-- Settles O20: the read answers where the access has a meaning, and `LOAD`'s own effect is to keep its word. -/
theorem loadReadsTheWord : Obligations.LoadReadsTheWord := by
  intro d s himp hacc
  obtain ⟨w, t, hread⟩ := (memRead_ok_iff s d).2 hacc
  obtain ⟨k, rfl⟩ := memRead_state hread
  exact ⟨w, k, _, hread, rfl, (exec_next_iff_ownEffect (i := .load d) himp (by simp)).2 ⟨w, k, hread, rfl⟩⟩

/-- Settles O21: `STORE` is its DATA-segment write, which on a cell is a word write that keeps the INST segment. -/
theorem storeKeepsTheOpcodeOfACell : Obligations.StoreKeepsTheOpcodeOfACell := by
  intro d s himp hcell
  refine ⟨_, exec_store_of_write himp (memWrite12_cell hcell _), rfl, ?_,
    fun _ => readByte_writeWord_other s.mem _⟩
  rw [advance_mem, State.setMem_mem, cellNumber_writeWord_same, withData_toNat, dataOf_toNat,
    cellNumber_eq_readWord_toNat]

/-- Settles O22: `SFULL` is its whole-word write, which on a cell is a word write. -/
theorem sfullReplacesTheWholeCell : Obligations.SfullReplacesTheWholeCell := by
  intro d s himp hcell
  exact ⟨_, exec_sfull_of_write himp (memWrite16_cell hcell _), rfl, cellNumber_writeWord_same s.mem d s.acc,
    fun _ => readByte_writeWord_other s.mem _⟩

/-! ### The frame of a write, and of the two stores -/

section

variable {s u : State} {a : Addr} {x : Word}

/-- No write reaches the registers of the CPU, the stack, the parameters or the count of free values. -/
theorem memWrite16_keeps_cpu (h : memWrite16 s a x = .ok u) :
    u.pc = s.pc ∧ u.acc = s.acc ∧ u.ir = s.ir ∧ u.h = s.h ∧ u.z = s.z ∧ u.stack = s.stack ∧ u.cfg = s.cfg ∧
      u.portReads = s.portReads := by
  rw [memWrite16_frame h]
  exact ⟨rfl, rfl, rfl, rfl, rfl, rfl, rfl, rfl⟩

theorem memWrite16_keeps_out (h : memWrite16 s a x = .ok u) (hascii : a ≠ 0x00A#12) (hsmall : a ≠ 0x00B#12) :
    u.out = s.out := by
  obtain ⟨l, hl, -, hport⟩ := memWrite16_out h
  have hnil : l = [] := of_not_not fun hne => (hport hne).elim hascii hsmall
  rw [hl, hnil, List.append_nil]

/-- A write that answers at an address which is no cell is the write of a register or a port. -/
theorem memWrite16_keeps_mem_of_not_isCell (h : memWrite16 s a x = .ok u) (hcell : ¬ IsCell s a) :
    u.mem = s.mem := by
  rcases memWrite16_cases s a x with
    ⟨hc, -⟩ | ⟨-, he⟩ | ⟨-, he⟩ | ⟨-, he⟩ | ⟨-, he⟩ | ⟨-, he⟩ | ⟨-, he⟩ | ⟨-, he⟩
  case inl => exact absurd hc hcell
  all_goals rw [he] at h; cases h
  case inr.inr.inr.inl => rw [asciiPort_eq]
  case inr.inr.inr.inr.inl => rw [smallPort_eq]
  all_goals rfl

theorem memWrite16_keeps_bytes (h : memWrite16 s a x = .ok u) {b : Nat} (hlow : b ≠ byteAddress a)
    (hhigh : b ≠ byteAddress a + 1) : u.mem.readByte b = s.mem.readByte b := by
  by_cases hcell : IsCell s a
  · rw [memWrite16_cell hcell] at h
    cases h
    exact readByte_writeWord_other s.mem x hlow hhigh
  · rw [memWrite16_keeps_mem_of_not_isCell h hcell]

end

/-- An implemented `STORE` or `SFULL` that has a next state is a whole-word write and the advance of `PC`. -/
theorem exec_storing_eq_write {d : Addr} {i : Instr} {s t : State} (hi : i ∈ [.store d, .sfull d])
    (himp : implemented s.cfg (opcodeOf i) = true) (h : exec i s = .next t) :
    ∃ x u, memWrite16 s d x = .ok u ∧ t = advance u := by
  simp only [List.mem_cons, List.not_mem_nil, or_false] at hi
  rcases hi with rfl | rfl
  · exact ownEffect_store (.inl ((exec_next_iff_ownEffect himp (by simp)).1 h))
  · exact ownEffect_store (.inr ((exec_next_iff_ownEffect himp (by simp)).1 h))

/-- Settles O59: the advance writes `PC` only, so what the whole-word write keeps is kept. -/
theorem frameOfStoringInstructions : Obligations.FrameOfStoringInstructions := by
  intro d i s t hi himp h
  obtain ⟨x, u, hu, rfl⟩ := exec_storing_eq_write hi himp h
  obtain ⟨keepsPc, keepsAcc, keepsIr, keepsH, keepsZ, keepsStack, keepsCfg, keepsPortReads⟩ :=
    memWrite16_keeps_cpu hu
  obtain ⟨keepsReason, keepsReturn, keepsTerminal, keepsStackSize⟩ := memWrite16_keeps_registers hu
  have keepsOut : d ≠ 0x00A#12 → d ≠ 0x00B#12 → u.out = s.out := memWrite16_keeps_out hu
  have keepsBytes (b : Nat) : b ≠ byteAddress d → b ≠ byteAddress d + 1 → u.mem.readByte b = s.mem.readByte b :=
    memWrite16_keeps_bytes hu
  have keepsMem : ¬ IsCell s d → u.mem = s.mem := memWrite16_keeps_mem_of_not_isCell hu
  exact ⟨congrArg nextPc keepsPc, keepsAcc, keepsIr, keepsH, keepsZ, keepsStack, keepsCfg, keepsPortReads,
    keepsReason, keepsReturn, keepsOut, keepsTerminal, keepsStackSize, keepsBytes,
    fun hcell b => congrArg (Memory.readByte · b) (keepsMem hcell)⟩

end Sys2Proof.Proofs
end

section
/-! PROOFS. The shift, logic and arithmetic instructions `LSHFT`, `RSHFT`, `XOR`, `AND`, `ADD`: effect as numbers and
bit by bit, the idioms, and the frame they share with `LOAD` (42_alu.md R120 to R127, 41_memory_access.md R110). -/

namespace Sys2Proof.Proofs

open Sys2Proof.Machine

/-! ### The effects -/

section

variable {s : State}

theorem exec_lshft_of_implemented (himp : implemented s.cfg 0x6#4 = true) (n : Nat) (g : Segment) :
    exec (.lshft n g) s = .next { s with acc := shiftLeft n g s.acc, pc := nextPc s.pc } :=
  (exec_next_iff_ownEffect (i := .lshft n g) himp (by simp)).2 rfl

theorem exec_rshft_of_implemented (himp : implemented s.cfg 0x7#4 = true) (n : Nat) (g : Segment) :
    exec (.rshft n g) s = .next { s with acc := shiftRight n g s.acc, pc := nextPc s.pc } :=
  (exec_next_iff_ownEffect (i := .rshft n g) himp (by simp)).2 rfl

theorem exec_xor_of_implemented (himp : implemented s.cfg 0x8#4 = true) (d : Data) :
    exec (.xor d) s = .next { s with acc := onData (fun x => x ^^^ d) s.acc, pc := nextPc s.pc } :=
  (exec_next_iff_ownEffect (i := .xor d) himp (by simp)).2 rfl

theorem exec_and_of_implemented (himp : implemented s.cfg 0x9#4 = true) (d : Data) :
    exec (.and d) s = .next { s with acc := onData (fun x => x &&& d) s.acc, pc := nextPc s.pc } :=
  (exec_next_iff_ownEffect (i := .and d) himp (by simp)).2 rfl

theorem exec_add_of_implemented (himp : implemented s.cfg 0xB#4 = true) (d : Data) :
    exec (.add d) s = .next { s with
      acc := addImmediate s.acc d, z := zeroFlag (addImmediate s.acc d), pc := nextPc s.pc } :=
  (exec_next_iff_ownEffect (i := .add d) himp (by simp)).2 rfl

end

/-! ### The shifts as numbers (R120, R121, on D7) -/

theorem shiftLeft_whole (n : Nat) (w : Word) : shiftLeft n .whole w = BitVec.ofNat 16 (w.toNat * 2 ^ n) := by
  refine BitVec.eq_of_toNat_eq ?_
  rw [shiftLeft, BitVec.toNat_shiftLeft, Nat.shiftLeft_eq, BitVec.toNat_ofNat]

theorem shiftLeft_data (n : Nat) (w : Word) :
    shiftLeft n .data w = BitVec.ofNat 16 (w.toNat / 4096 * 4096 + w.toNat % 4096 * 2 ^ n % 4096) := by
  rw [shiftLeft, onData, withData_eq_ofNat, BitVec.toNat_shiftLeft, Nat.shiftLeft_eq, dataOf_toNat]

theorem shiftRight_whole (n : Nat) (w : Word) : shiftRight n .whole w = BitVec.ofNat 16 (w.toNat / 2 ^ n) := by
  rw [shiftRight, ← Nat.shiftRight_eq_div_pow, ← BitVec.toNat_ushiftRight, BitVec.ofNat_toNat, BitVec.setWidth_eq]

theorem shiftRight_data (n : Nat) (w : Word) :
    shiftRight n .data w = BitVec.ofNat 16 (w.toNat / 4096 * 4096 + w.toNat % 4096 / 2 ^ n) := by
  rw [shiftRight, onData, withData_eq_ofNat, BitVec.toNat_ushiftRight, Nat.shiftRight_eq_div_pow, dataOf_toNat]

/-- Settles O26: `LSHFT`'s own effect, in the numbers of each form. -/
theorem leftShiftOfTheSelectedSegment : Obligations.LeftShiftOfTheSelectedSegment := by
  intro n s himp
  rw [← shiftLeft_whole, ← shiftLeft_data]
  exact ⟨exec_lshft_of_implemented himp n .whole, exec_lshft_of_implemented himp n .data⟩

/-- Settles O27: `RSHFT`'s own effect, in the numbers of each form. -/
theorem rightShiftOfTheSelectedSegment : Obligations.RightShiftOfTheSelectedSegment := by
  intro n s himp
  rw [← shiftRight_whole, ← shiftRight_data]
  exact ⟨exec_rshft_of_implemented himp n .whole, exec_rshft_of_implemented himp n .data⟩

/-! ### The logic instructions bit by bit (R122, R123) -/

/-- Below bit 12 stands the new DATA segment (R9). -/
theorem getLsbD_onData_of_lt (f : Data → Data) (w : Word) {k : Nat} (hk : k < 12) :
    (onData f w).getLsbD k = (f (dataOf w)).getLsbD k := by
  rw [onData, withData, joinSegments, BitVec.getLsbD_append, if_pos hk]

/-- From bit 12 up the word is kept (R9). -/
theorem getLsbD_onData_of_le (f : Data → Data) (w : Word) {k : Nat} (hk : 12 ≤ k) :
    (onData f w).getLsbD k = w.getLsbD k := by
  obtain ⟨j, rfl⟩ := Nat.exists_eq_add_of_le hk
  calc (onData f w).getLsbD (12 + j)
      _ = (instOf w).getLsbD j := getLsbD_joinSegments_inst _ _ j
      _ = (joinSegments (instOf w) (dataOf w)).getLsbD (12 + j) := (getLsbD_joinSegments_inst _ _ j).symm
      _ = w.getLsbD (12 + j) := by rw [joinSegments_segments]

theorem getLsbD_dataOf (w : Word) {k : Nat} (hk : k < 12) : (dataOf w).getLsbD k = w.getLsbD k := by
  simp [dataOf, hk]

/-- Settles O28: the word is the encoding of `XOR`, whose own effect is on the DATA segment. -/
theorem xorActsOnTheDataSegment : Obligations.XorActsOnTheDataSegment := by
  intro d s himp
  refine ⟨decodeWord_ofNat_operand (op := 0x8) rfl rfl rfl, _, exec_xor_of_implemented himp d, fun k hk => ?_,
    fun k => getLsbD_onData_of_le _ s.acc⟩
  rw [getLsbD_onData_of_lt _ _ hk, BitVec.getLsbD_xor, getLsbD_dataOf _ hk]

/-- Settles O29: the word is the encoding of `AND`, whose own effect is on the DATA segment. -/
theorem andActsOnTheDataSegment : Obligations.AndActsOnTheDataSegment := by
  intro d s himp
  refine ⟨decodeWord_ofNat_operand (op := 0x9) rfl rfl rfl, _, exec_and_of_implemented himp d, fun k hk => ?_,
    fun k => getLsbD_onData_of_le _ s.acc⟩
  rw [getLsbD_onData_of_lt _ _ hk, BitVec.getLsbD_and, getLsbD_dataOf _ hk]

/-! ### The sum (R124, R125, on D6) -/

theorem addImmediate_toNat (w : Word) (d : Data) : (addImmediate w d).toNat = (w.toNat + d.toNat) % 65536 := by
  rw [addImmediate, BitVec.toNat_add, zextData_toNat]

theorem addImmediate_eq_ofNat (w : Word) (d : Data) :
    addImmediate w d = BitVec.ofNat 16 ((w.toNat + d.toNat) % 65536) := by
  rw [← addImmediate_toNat, BitVec.ofNat_toNat, BitVec.setWidth_eq]

/-- 4096 divides 2^16, so the flag does not see the carry out of the word. -/
theorem zeroFlag_addImmediate (w : Word) (d : Data) :
    zeroFlag (addImmediate w d) = decide ((w.toNat + d.toNat) % 4096 = 0) := by
  have hmod : (w.toNat + d.toNat) % 65536 % 4096 = (w.toNat + d.toNat) % 4096 :=
    Nat.mod_mod_of_dvd _ (by decide)
  rw [Bool.eq_iff_iff, zeroFlag_iff, addImmediate_toNat, hmod, decide_eq_true_iff]

theorem dataOf_addImmediate_toNat (w : Word) (d : Data) :
    (dataOf (addImmediate w d)).toNat = ((dataOf w).toNat + d.toNat) % 4096 := by
  rw [dataOf_toNat, dataOf_toNat, addImmediate_toNat]
  omega

/-- The carry out of the DATA segment is added to the INST segment (R125). -/
theorem instOf_addImmediate_toNat (w : Word) (d : Data) :
    (instOf (addImmediate w d)).toNat =
      ((instOf w).toNat + if 4096 ≤ (dataOf w).toNat + d.toNat then 1 else 0) % 16 := by
  have hd := d.isLt
  rw [instOf_toNat, instOf_toNat, dataOf_toNat, addImmediate_toNat]
  split <;> omega

/-- Settles O30: `ADD`'s own effect, in numbers. -/
theorem addIsTheModularSum : Obligations.AddIsTheModularSum := by
  intro d s himp
  rw [← addImmediate_eq_ofNat, ← zeroFlag_addImmediate]
  exact exec_add_of_implemented himp d

/-- Settles O31: the two segments of the sum. -/
theorem addCarriesIntoTheInstSegment : Obligations.AddCarriesIntoTheInstSegment := fun d s himp =>
  ⟨_, exec_add_of_implemented himp d, dataOf_addImmediate_toNat s.acc d, instOf_addImmediate_toNat s.acc d⟩

/-! ### The idioms (R127) -/

/-- Exclusive-or with `0xFFF` complements the DATA segment. -/
theorem dataOf_onData_xor_ones_toNat (w : Word) :
    (dataOf (onData (fun x => x ^^^ 0xFFF#12) w)).toNat = 4095 - (dataOf w).toNat := by
  rw [onData, dataOf_withData, show 0xFFF#12 = BitVec.allOnes 12 from rfl, BitVec.xor_allOnes, BitVec.toNat_not]

/-- R127 (c): complementing the DATA segment and adding one negates it, modulo 4096. -/
theorem dataOf_complement_add_one_toNat (w : Word) :
    (dataOf (addImmediate (onData (fun x => x ^^^ 0xFFF#12) w) 0x001#12)).toNat =
      (4096 - (dataOf w).toNat) % 4096 := by
  have hw := (dataOf w).isLt
  rw [dataOf_addImmediate_toNat, dataOf_onData_xor_ones_toNat, BitVec.toNat_ofNat]
  omega

/-- R127 (d): the left shift drops the INST segment, and the right shift moves the DATA segment back. -/
theorem shiftRight_shiftLeft_four_toNat (w : Word) :
    (shiftRight 4 .whole (shiftLeft 4 .whole w)).toNat = w.toNat % 4096 := by
  rw [shiftRight_whole, shiftLeft_whole, BitVec.toNat_ofNat, BitVec.toNat_ofNat]
  omega

/-- R127 (e): a right shift by the width of the DATA segment leaves the INST segment at the bottom. -/
theorem shiftRight_twelve_toNat (w : Word) : (shiftRight 12 .whole w).toNat = w.toNat / 4096 := by
  have hw := w.isLt
  rw [shiftRight_whole, BitVec.toNat_ofNat]
  omega

/-- R127 (f): a count of the word's width shifts every bit out (D7). -/
theorem shiftLeft_sixteen (w : Word) : shiftLeft 16 .whole w = 0x0000#16 := BitVec.shiftLeft_eq_zero le_rfl

/-- Settles O32: an instruction keeps the parameters, so the next of its sequence is implemented too. -/
theorem shiftAndAddIdioms : Obligations.ShiftAndAddIdioms := by
  intro s himp
  have hlshft : implemented s.cfg 0x6#4 = true := himp _ (by simp)
  have hrshft : implemented s.cfg 0x7#4 = true := himp _ (by simp)
  have hxor : implemented s.cfg 0x8#4 = true := himp _ (by simp)
  have hadd : implemented s.cfg 0xB#4 = true := himp _ (by simp)
  refine ⟨⟨_, _, exec_xor_of_implemented hxor _, exec_add_of_implemented ?_ _, ?_⟩,
    ⟨_, _, exec_lshft_of_implemented hlshft _ _, exec_rshft_of_implemented ?_ _ _, ?_⟩,
    ⟨_, exec_rshft_of_implemented hrshft _ _, ?_⟩, ⟨_, exec_lshft_of_implemented hlshft _ _, ?_⟩⟩
  · exact hadd
  · exact dataOf_complement_add_one_toNat s.acc
  · exact hrshft
  · exact shiftRight_shiftLeft_four_toNat s.acc
  · exact shiftRight_twelve_toNat s.acc
  · exact shiftLeft_sixteen s.acc

/-! ### The frame -/

/-- Only a read of a console port takes a free value (log 7). -/
theorem memRead_keeps_state {s t : State} {a : Addr} {w : Word} (h : memRead s a = .ok (w, t))
    (hascii : a ≠ 0x00A#12) (hsmall : a ≠ 0x00B#12) : t = s := by
  rcases memRead_cases s a with ⟨v, hv⟩ | ⟨hport, -⟩ | ⟨-, hv⟩
  · rw [hv] at h; cases h; rfl
  · exact absurd hport (not_or.2 ⟨hascii, hsmall⟩)
  · rw [hv] at h; cases h

/-- An instruction that writes `ACC` and no memory advances `PC`; `ADD` also writes the zero flag and `LOAD` of a port
the count of free values (R110, R120 to R124). -/
theorem exec_accumulator_writes {d : Data} {n : Nat} {g : Segment} {i : Instr} {s t : State}
    (hi : i ∈ [.lshft n g, .rshft n g, .xor d, .and d, .add d, .load d])
    (himp : implemented s.cfg (opcodeOf i) = true) (h : exec i s = .next t) :
    ∃ w b k, t = { s with acc := w, pc := nextPc s.pc, z := b, portReads := k } ∧
      (i ≠ .add d → b = s.z) ∧ (i ≠ .load 0x00A#12 → i ≠ .load 0x00B#12 → k = s.portReads) := by
  simp only [List.mem_cons, List.not_mem_nil, or_false] at hi
  rcases hi with rfl | rfl | rfl | rfl | rfl | rfl
  case inr.inr.inr.inr.inl =>
    exact ⟨_, _, _, (exec_next_iff_ownEffect himp (by simp)).1 h, fun hne => absurd rfl hne, fun _ _ => rfl⟩
  case inr.inr.inr.inr.inr =>
    obtain ⟨w, k, hread, rfl⟩ := (exec_next_iff_ownEffect himp (by simp)).1 h
    refine ⟨w, s.z, k, rfl, fun _ => rfl, fun hascii hsmall => ?_⟩
    exact congrArg State.portReads
      (memRead_keeps_state hread (fun e => hascii (congrArg Instr.load e)) (fun e => hsmall (congrArg Instr.load e)))
  all_goals
    exact ⟨_, s.z, _, (exec_next_iff_ownEffect himp (by simp)).1 h, fun _ => rfl, fun _ _ => rfl⟩

/-- Settles O57: of the fields it names only these three can be written. -/
theorem frameOfAccumulatorInstructions : Obligations.FrameOfAccumulatorInstructions := by
  intro d n g i s t hi himp h
  obtain ⟨w, b, k, rfl, keepsZ, keepsPortReads⟩ := exec_accumulator_writes hi himp h
  exact ⟨rfl, rfl, rfl, keepsZ, rfl, rfl, rfl, rfl, rfl, rfl, rfl, keepsPortReads, fun _ => rfl⟩

end Sys2Proof.Proofs
end

section
/-! PROOFS. The stack instructions `POP`, `PUSH`: effect, limits and frame (43_stack.md R140 to R143). -/

namespace Sys2Proof.Proofs

open Sys2Proof.Machine

/-! ### The effects -/

/-- R153: `POP` and `PUSH` are implemented on a machine that has a stack. -/
theorem implemented_stack_of_pos {c : Config} {op : Opcode} (hop : op = 0xD#4 ∨ op = 0xE#4) (hpos : 0 < c.stackDepth) :
    implemented c op = true :=
  (implemented_stack hop).trans (decide_eq_true hpos)

/-- Settles O33: a word on top of the stack is what `POP`'s own effect asks for. -/
theorem popTakesTheTopWord : Obligations.PopTakesTheTopWord := by
  intro d s l w hpos hs
  have himp : implemented s.cfg 0xD#4 = true := implemented_stack_of_pos (.inl rfl) hpos
  exact (exec_next_iff_ownEffect (i := .pop d) himp (by simp)).2 ⟨l, w, hs, rfl⟩

/-- Settles O34: room on the stack is what `PUSH`'s own effect asks for, and it makes `STACK_DEPTH` positive. -/
theorem pushPutsTheAccumulatorOnTop : Obligations.PushPutsTheAccumulatorOnTop := by
  intro d s hroom
  have himp : implemented s.cfg 0xE#4 = true := implemented_stack_of_pos (.inr rfl) (Nat.zero_lt_of_lt hroom)
  exact (exec_next_iff_ownEffect (i := .push d) himp (by simp)).2 ⟨hroom, rfl⟩

/-- Settles O36: after the `PUSH` the top word is `ACC`, so the `POP` puts back the stack below it and `ACC` itself. -/
theorem popAfterPushRestores : Obligations.PopAfterPushRestores := by
  intro d e s hroom
  refine ⟨_, pushPutsTheAccumulatorOnTop d s hroom, ?_⟩
  exact popTakesTheTopWord e _ s.stack s.acc (Nat.zero_lt_of_lt hroom) rfl

/-! ### The limits (R143, D9) -/

theorem pushStack_eq_none {s : State} {v : Word} : pushStack s v = none ↔ s.cfg.stackDepth ≤ s.stack.length := by
  simp [pushStack]

/-- Settles O35: on an empty stack `Pop` has no value, and on a full one `Push` has none. -/
theorem stackLimitsAreRefused : Obligations.StackLimitsAreRefused := by
  intro d s hpos
  refine ⟨fun hempty => ?_, fun hfull => ?_⟩
  · have noWord : popStack s = none := popStack_eq_none.2 hempty
    rw [exec, execPop, ifImplemented_true (implemented_stack_of_pos (.inl rfl) hpos), noWord]
  · have noRoom : pushStack s s.acc = none := pushStack_eq_none.2 hfull.ge
    rw [exec, execPush, ifImplemented_true (implemented_stack_of_pos (.inr rfl) hpos), noRoom]

/-! ### The frame -/

/-- A stack instruction advances `PC` and writes the stack, and `POP` also writes `ACC` (R140, R141). -/
theorem exec_stack_writes {d : Data} {i : Instr} {s t : State} (hi : i ∈ [.pop d, .push d])
    (himp : implemented s.cfg (opcodeOf i) = true) (h : exec i s = .next t) :
    ∃ w l, t = { s with acc := w, stack := l, pc := nextPc s.pc } ∧ (i = .push d → w = s.acc) := by
  simp only [List.mem_cons, List.not_mem_nil, or_false] at hi
  rcases hi with rfl | rfl
  · obtain ⟨l, w, -, rfl⟩ := (exec_next_iff_ownEffect himp (by simp)).1 h
    exact ⟨w, l, rfl, nofun⟩
  · obtain ⟨-, rfl⟩ := (exec_next_iff_ownEffect himp (by simp)).1 h
    exact ⟨s.acc, _, rfl, fun _ => rfl⟩

/-- Settles O58: of the fields it names only `PC` and, by `POP`, `ACC` can be written. -/
theorem frameOfStackInstructions : Obligations.FrameOfStackInstructions := by
  intro d i s t hi himp h
  obtain ⟨w, l, rfl, keepsAcc⟩ := exec_stack_writes hi himp h
  exact ⟨rfl, keepsAcc, rfl, rfl, rfl, rfl, rfl, rfl, rfl, rfl, rfl, rfl, fun _ => rfl⟩

end Sys2Proof.Proofs
end

section
/-! PROOFS. Reserved opcodes and instructions that are not implemented (44_reserved.md R150 to R153). -/

namespace Sys2Proof.Proofs

open Sys2Proof.Machine

/-! ### Taking the fault -/

/-- The reason code is `0x0FF0` plus the opcode as a number (R161): the sum does not wrap. -/
theorem faultReason_eq_ofNat (op : Opcode) : faultReason op = BitVec.ofNat 16 (0x0FF0 + op.toNat) := by
  rw [← faultReason_toNat, BitVec.ofNat_toNat, BitVec.setWidth_eq]

theorem exec_of_takesFault {i : Instr} {s : State} (hf : TakesFault i s) :
    exec i s = .next (raiseFault (opcodeOf i) s) :=
  (exec_next_iff i s _).2 (.inl ⟨hf, rfl⟩)

/-- R152: a defined instruction that is not implemented takes the fault. -/
theorem takesFault_of_not_implemented {i : Instr} {s : State} (h1 : opcodeOf i ≠ 0x1#4) (hC : opcodeOf i ≠ 0xC#4)
    (himp : implemented s.cfg (opcodeOf i) = false) : TakesFault i s := by
  cases i with
  | reserved1 d => exact absurd rfl h1
  | reserved2 d => exact absurd rfl hC
  | _ => exact himp

/-- Settles O39: the instruction takes the fault, whose entry is the state stated. -/
theorem unimplementedInstructionsFault : Obligations.UnimplementedInstructionsFault := by
  intro i s h1 hC himp
  rw [exec_of_takesFault (takesFault_of_not_implemented h1 hC himp), raiseFault_eq, faultReason_eq_ofNat]

/-- Settles O38: the parameter of each reserved opcode says whether it takes the fault; where it does not, the
opcode's meaning is the refusal. -/
theorem reservedOpcodesFaultOrAreRefused : Obligations.ReservedOpcodesFaultOrAreRefused := by
  intro d s
  refine ⟨fun hf => ?_, fun hf => ?_, fun hf => ?_, fun hf => ?_⟩
  · exact exec_of_takesFault (i := .reserved1 d) hf
  · exact exec_of_takesFault (i := .reserved2 d) hf
  · rw [exec, execReserved1, if_neg (ne_true_of_eq_false hf)]
  · rw [exec, execReserved2, if_neg (ne_true_of_eq_false hf)]

/-! ### Which instructions are implemented -/

/-- R152: an opcode other than those of `POP` and `PUSH` is implemented unless it is left out. -/
theorem implemented_of_not_stack {c : Config} {op : Opcode} (h : ¬ (op = 0xD#4 ∨ op = 0xE#4)) :
    implemented c op = !c.omitted.contains op := by
  rw [implemented, if_neg h]

/-- Settles O40: the stack depth decides for `POP` and `PUSH`, and legal parameters leave no other opcode out. -/
theorem legalParametersImplementAllButTheStack : Obligations.LegalParametersImplementAllButTheStack := by
  intro c op ⟨_, noneOmitted⟩
  by_cases hop : op = 0xD#4 ∨ op = 0xE#4
  · simp [implemented_stack hop, hop]
  · simp [implemented_of_not_stack hop, hop, noneOmitted]

end Sys2Proof.Proofs
end

section
/-! PROOFS. The fault entry and the interrupt registers (60_exceptions.md R161 to R170; 10_state.md R27, R28). -/

namespace Sys2Proof.Proofs

open Sys2Proof.Machine

/-! ### The fault entry -/

@[simp] theorem dataOf_zextData (d : Data) : dataOf (zextData d) = d := dataOf_joinSegments _ _

/-- The return register keeps the 12 bits of a zero-extended address (R28, R57). -/
theorem memWrite16_interruptReturn_zextData (s : State) (a : Addr) :
    memWrite16 s 0x009#12 (zextData a) = .ok (s.setInterruptReturn a) :=
  congrArg (fun x => Except.ok (s.setInterruptReturn x)) (dataOf_zextData a)

/-- Settles O41: the two writes set the two registers, to `next(PC)` and to the reason code. -/
theorem faultEntryIsTwoWritesAndAJump : Obligations.FaultEntryIsTwoWritesAndAJump := by
  intro op s
  rw [← nextPc_toNat, ← zextData_eq_ofNat, ← faultReason_eq_ofNat]
  exact ⟨_, _, memWrite16_interruptReturn_zextData s (nextPc s.pc), rfl, rfl⟩

/-- Settles O42: each field the second entry writes is one the first wrote, and it is taken at the fault vector. -/
theorem nestedFaultOverwritesTheFirst : Obligations.NestedFaultOverwritesTheFirst := by
  intro op op' s
  rw [raiseFault_eq, faultReason_eq_ofNat]
  rfl

/-! ### An instruction that faults -/

/-- A reserved opcode or an instruction that is not implemented has a next state only by the fault entry. -/
theorem eq_raiseFault_of_exec_faulting {i : Instr} {s t : State}
    (hi : opcodeOf i = 0x1#4 ∨ opcodeOf i = 0xC#4 ∨ implemented s.cfg (opcodeOf i) = false)
    (h : exec i s = .next t) : t = raiseFault (opcodeOf i) s := by
  rcases (exec_next_iff i s t).1 h with ⟨-, ht⟩ | ⟨hf, hown⟩
  · exact ht
  · cases i with
    | reserved1 d | reserved2 d => exact hown.elim
    | _ => exact absurd ((hi.resolve_left (by simp [opcodeOf])).resolve_left (by simp [opcodeOf])) hf

/-- Settles O60: the fault entry writes the two interrupt registers and `PC` only. -/
theorem frameOfFaultingInstructions : Obligations.FrameOfFaultingInstructions := by
  intro i s t hi h
  obtain rfl := eq_raiseFault_of_exec_faulting hi h
  exact ⟨rfl, rfl, rfl, rfl, rfl, rfl, rfl, rfl, rfl, rfl, fun _ => rfl⟩

/-! ### What writes the interrupt registers -/

/-- A store writes an interrupt register only at that register's address. -/
theorem ownEffect_store_interruptRegisters {a : Addr} {s t : State}
    (h : OwnEffect (.store a) s t ∨ OwnEffect (.sfull a) s t) :
    (t.interruptReason = s.interruptReason ∧ t.interruptReturn = s.interruptReturn) ∨
      a = 0x008#12 ∨ a = 0x009#12 := by
  obtain ⟨x, u, hu, rfl⟩ := ownEffect_store h
  obtain ⟨keepsReason, keepsReturn, -⟩ := memWrite16_keeps_registers hu
  by_cases ha : a = 0x008#12 ∨ a = 0x009#12
  · exact .inr ha
  · obtain ⟨h8, h9⟩ := not_or.1 ha
    exact .inl ⟨keepsReason h8, keepsReturn h9⟩

/-- Settles O44: the fault entry records the opcode and `next(PC)`; of the own effects only those of the two stores
write an interrupt register. -/
theorem faultRegistersRecordTheFaultingOpcode : Obligations.FaultRegistersRecordTheFaultingOpcode := by
  intro i s t h
  rcases (exec_next_iff i s t).1 h with ⟨-, rfl⟩ | ⟨-, h⟩
  · exact .inr (.inr (.inr (.inr (.inr ⟨faultReason_toNat _, rfl, rfl⟩))))
  cases i with
  | reserved1 d | reserved2 d => exact h.elim
  | halt d | jump d | noop d | jumpz d | lshft n g | rshft n g | xor d | and d | add d =>
    obtain rfl := h
    exact .inl ⟨rfl, rfl⟩
  | load a =>
    obtain ⟨w, k, -, rfl⟩ := h
    exact .inl ⟨rfl, rfl⟩
  | store a =>
    rcases ownEffect_store_interruptRegisters (.inl h) with keeps | rfl | rfl
    · exact .inl keeps
    all_goals simp
  | sfull a =>
    rcases ownEffect_store_interruptRegisters (.inr h) with keeps | rfl | rfl
    · exact .inl keeps
    all_goals simp
  | pop d =>
    obtain ⟨l, w, -, rfl⟩ := h
    exact .inl ⟨rfl, rfl⟩
  | push d =>
    obtain ⟨-, rfl⟩ := h
    exact .inl ⟨rfl, rfl⟩

/-! ### The return from a handler (R169) -/

/-- `LOAD 0x009` puts the zero-extended return address into `ACC` (D13, D14). -/
theorem exec_load_interruptReturn {s : State} (himp : implemented s.cfg 0x4#4 = true) :
    exec (.load 0x009#12) s = .next (advance (s.setAcc (zextData s.interruptReturn))) := by
  rw [exec, execLoad, ifImplemented_true himp]
  rfl

/-- A `JUMP` word whose DATA segment is replaced is the `JUMP` to that address: its INST segment is kept. -/
theorem decodeWord_withData_of_jump {c : Word} {x : Addr} (hc : decodeWord c = .jump x) (v : Addr) :
    decodeWord (withData c v) = .jump v := by
  have hop : instOf c = opcodeOf (.jump v) := by rw [← opcodeOf_decodeWord, hc, opcodeOf, opcodeOf]
  rw [withData, hop]
  exact decodeWord_encode (i := .jump v) rfl

/-- `STORE` to a cell that holds a `JUMP` word makes it the `JUMP` to `ACC.DATA` (R111). -/
theorem exec_store_patches_jump {s : State} {r x : Addr} (himp : implemented s.cfg 0x5#4 = true) (hcell : IsCell s r)
    (hword : decodeWord (s.mem.readWord r) = .jump x) :
    ∃ u, exec (.store r) s = .next u ∧ decodeWord (u.mem.readWord r) = .jump (dataOf s.acc) := by
  refine ⟨_, exec_store_of_write himp (memWrite12_cell hcell _), ?_⟩
  rw [advance_mem, State.setMem_mem, Memory.readWord_writeWord_same]
  exact decodeWord_withData_of_jump hword _

/-- Settles O43: `LOAD` reads the address the fault recorded, and `STORE` puts it into the `JUMP` word. -/
theorem handlerCanReturnFromAFault : Obligations.HandlerCanReturnFromAFault := by
  intro op s r x hload hstore hjump hcell hword
  have hread := exec_load_interruptReturn (s := raiseFault op s) hload
  obtain ⟨u, hwrite, hpatched⟩ := exec_store_patches_jump
    (s := advance ((raiseFault op s).setAcc (zextData (nextPc s.pc)))) hstore hcell hword
  rw [advance_acc, State.setAcc_acc, dataOf_zextData] at hpatched
  have himp : implemented u.cfg 0x2#4 = true := by
    rw [exec_keeps_cfg hwrite]
    exact hjump
  exact ⟨_, u, hread, hwrite, hpatched, (jumpSetsThePc (nextPc s.pc) u himp).2⟩

end Sys2Proof.Proofs
end

section
/-! PROOFS. The console: what a store to each port sends, and the SMALL table (60_exceptions.md R175 to R177). -/

namespace Sys2Proof.Proofs

open Sys2Proof.Machine

/-! ### The fields of `ACC` as numbers -/

/-- The character of the ASCII port: the low eight bits of the word stored (R175). -/
theorem dataOf_char (w : Word) : (dataOf w).extractLsb' 0 8 = BitVec.ofNat 8 (w.toNat % 256) :=
  BitVec.eq_of_toNat_eq (by rw [toNat_extractLsb'_eq, dataOf_toNat, BitVec.toNat_ofNat]; omega)

/-- The lower of the two codes of the SMALL port (R176). -/
theorem dataOf_lowCode (w : Word) : (dataOf w).extractLsb' 0 6 = BitVec.ofNat 6 (w.toNat % 64) :=
  BitVec.eq_of_toNat_eq (by rw [toNat_extractLsb'_eq, dataOf_toNat, BitVec.toNat_ofNat]; omega)

/-- The higher of the two codes of the SMALL port (R176). -/
theorem dataOf_highCode (w : Word) : (dataOf w).extractLsb' 6 6 = BitVec.ofNat 6 (w.toNat % 4096 / 64) :=
  BitVec.eq_of_toNat_eq (by rw [toNat_extractLsb'_eq, dataOf_toNat, BitVec.toNat_ofNat]; omega)

/-! ### The ports -/

/-- Settles O45: both stores are the port action on `ACC.DATA` and the advance of `PC`. -/
theorem asciiPortSendsOneCharacter : Obligations.AsciiPortSendsOneCharacter := by
  intro s hstore hsfull o
  have hport : advance (asciiPort s (dataOf s.acc)) = { s with out := o, pc := nextPc s.pc } := by
    rw [asciiPort_eq, dataOf_char]
    rfl
  rw [← hport]
  exact ⟨exec_store_of_write hstore rfl, exec_sfull_of_write hsfull rfl⟩

/-- Settles O46: both stores are the port action on `ACC.DATA` and the advance of `PC`. -/
theorem smallPortSendsTwoCodes : Obligations.SmallPortSendsTwoCodes := by
  intro s hstore hsfull high low codes o
  have hport : advance (smallPort s (dataOf s.acc)) = { s with out := o, pc := nextPc s.pc } := by
    rw [smallPort_eq, dataOf_highCode, dataOf_lowCode]
    rfl
  rw [← hport]
  exact ⟨exec_store_of_write hstore rfl, exec_sfull_of_write hsfull rfl⟩

/-- Settles O47: the closed form is evaluated on each of the 64 codes. -/
theorem smallTable : Obligations.SmallTable := by
  unfold Obligations.SmallTable
  decide

end Sys2Proof.Proofs
end

section
/-! PROOFS. Halting, and exactly where a running machine's step has a next state (70_reset_and_hazards.md R203,
R207). -/

namespace Sys2Proof.Proofs

open Sys2Proof.Machine

/-! ### Halting -/

/-- A state that one step keeps is kept by a run of any length. -/
theorem run_of_step_eq_self {M : Host.Core} {s : M.State} (h : M.step s = .next s) (k : Nat) : M.run k s = .next s := by
  induction k with
  | zero => rfl
  | succ k ih => rw [Host.Core.run, h]; exact ih

/-- Settles O9: one step of a halted machine keeps its state, and so does every number of steps. -/
theorem haltedMachineKeepsEverything : Obligations.HaltedMachineKeepsEverything :=
  fun _ k hh => run_of_step_eq_self (M := core) (step_of_halted hh) k

/-! ### Where an own effect exists -/

section

variable {s : State} {a : Addr}

/-- A write answers exactly where the access has a meaning (R31, D15). -/
theorem memWrite16_ok_iff (x : Word) : (∃ u, memWrite16 s a x = .ok u) ↔ Accessible s a := by
  constructor
  · rintro ⟨u, hu⟩ hreserved
    cases hc : s.cfg.reservedCells with
    | ram => rfl
    | refuse =>
      rw [memWrite16_reserved ((regionOf_reserved_iff a).2 hreserved) hc] at hu
      cases hu
  · intro hacc
    rcases memWrite16_cases s a x with
      ⟨-, he⟩ | ⟨-, he⟩ | ⟨-, he⟩ | ⟨-, he⟩ | ⟨-, he⟩ | ⟨-, he⟩ | ⟨-, he⟩ | ⟨hna, -⟩
    case inr.inr.inr.inr.inr.inr.inr => exact absurd hacc hna
    all_goals exact ⟨_, he⟩

theorem exists_ownEffect_load_iff : (∃ t, OwnEffect (.load a) s t) ↔ Accessible s a := by
  rw [← memRead_ok_iff]
  constructor
  · rintro ⟨-, w, k, hr, -⟩
    exact ⟨w, _, hr⟩
  · rintro ⟨w, u, hr⟩
    obtain ⟨k, rfl⟩ := memRead_state hr
    exact ⟨_, w, k, hr, rfl⟩

theorem exists_ownEffect_sfull_iff : (∃ t, OwnEffect (.sfull a) s t) ↔ Accessible s a := by
  rw [← memWrite16_ok_iff s.acc]
  exact ⟨fun ⟨_, u, hu, _⟩ => ⟨u, hu⟩, fun ⟨u, hu⟩ => ⟨_, u, hu, rfl⟩⟩

/-- The DATA-segment write of `STORE` is a whole-word write, of another word than that of `SFULL`. -/
theorem exists_ownEffect_store_iff : (∃ t, OwnEffect (.store a) s t) ↔ Accessible s a := by
  rw [← memWrite16_ok_iff (withData (heldWord s a) (dataOf s.acc)), ← memWrite12_eq_memWrite16]
  exact ⟨fun ⟨_, u, hu, _⟩ => ⟨u, hu⟩, fun ⟨u, hu⟩ => ⟨_, u, hu, rfl⟩⟩

theorem exists_ownEffect_pop_iff {d : Data} : (∃ t, OwnEffect (.pop d) s t) ↔ s.stack ≠ [] := by
  constructor
  · rintro ⟨-, l, w, hs, -⟩
    rw [hs]
    exact List.concat_ne_nil w l
  · intro hne
    exact ⟨_, s.stack.dropLast, s.stack.getLast hne, (List.dropLast_concat_getLast hne).symm, rfl⟩

theorem exists_ownEffect_push_iff {d : Data} :
    (∃ t, OwnEffect (.push d) s t) ↔ s.stack.length < s.cfg.stackDepth :=
  ⟨fun ⟨_, hroom, _⟩ => hroom, fun hroom => ⟨_, hroom, rfl⟩⟩

end

/-! ### The UNDEFINED cases (R207) -/

/-- The `UNDEFINED` cases are those where an instruction neither takes the fault nor has an effect of its own. -/
theorem undefinedCase_iff (i : Instr) (s : State) :
    UndefinedCase i s ↔ ¬ TakesFault i s ∧ ¬ ∃ t, OwnEffect i s t := by
  cases i with
  | halt d | jump d | noop d | jumpz d | lshft n g | rshft n g | xor d | and d | add d =>
    exact iff_of_false id fun ⟨_, noEffect⟩ => noEffect ⟨_, rfl⟩
  | reserved1 d | reserved2 d => simp [UndefinedCase, TakesFault, OwnEffect]
  | load a => rw [exists_ownEffect_load_iff]; simp [UndefinedCase, TakesFault, opcodeOf]
  | store a => rw [exists_ownEffect_store_iff]; simp [UndefinedCase, TakesFault, opcodeOf]
  | sfull a => rw [exists_ownEffect_sfull_iff]; simp [UndefinedCase, TakesFault, opcodeOf]
  | pop d =>
    rw [exists_ownEffect_pop_iff]
    simp [UndefinedCase, TakesFault, opcodeOf, implemented_stack, Nat.pos_iff_ne_zero]
  | push d =>
    rw [exists_ownEffect_push_iff]
    simp [UndefinedCase, TakesFault, opcodeOf, implemented_stack, Nat.pos_iff_ne_zero]

/-- Executing an instruction has a next state exactly outside its `UNDEFINED` cases. -/
theorem exists_exec_next_iff (i : Instr) (s : State) : (∃ t, exec i s = .next t) ↔ ¬ UndefinedCase i s := by
  rw [undefinedCase_iff, ← not_or, not_not]
  simp only [exec_next_iff]
  constructor
  · rintro ⟨t, ⟨hf, -⟩ | ⟨-, ht⟩⟩
    · exact .inl hf
    · exact .inr ⟨t, ht⟩
  · intro h
    by_cases hf : TakesFault i s
    · exact ⟨_, .inl ⟨hf, rfl⟩⟩
    · obtain ⟨t, ht⟩ := h.resolve_left hf
      exact ⟨t, .inr ⟨hf, ht⟩⟩

/-- The `UNDEFINED` cases read the parameters and the stack only, so the fetch before them plays no part. -/
theorem undefinedCase_congr {i : Instr} {s u : State} (hcfg : u.cfg = s.cfg) (hstack : u.stack = s.stack) :
    UndefinedCase i u ↔ UndefinedCase i s := by
  cases i <;> simp only [UndefinedCase, Accessible, hcfg, hstack]

/-- Where the fetch reads a word, the step has a next state exactly if the word is no `UNDEFINED` case. -/
theorem stepSafe_iff_of_memRead {s u : State} {w : Word} (hh : s.h = false) (hr : memRead s s.pc = .ok (w, u)) :
    StepSafe s ↔ ¬ UndefinedCase (decodeWord w) s := by
  obtain ⟨k, rfl⟩ := memRead_state hr
  rw [StepSafe, step_of_running hh (fetch_eq_ok_iff.2 ⟨_, hr, rfl⟩), exists_exec_next_iff]
  exact not_congr (undefinedCase_congr rfl rfl)

/-- Settles O11: the read of the fetch has a word exactly where `PC` is accessible; without one the step is refused. -/
theorem stepIsDefinedExactlyOutsideUndefinedCases : Obligations.StepIsDefinedExactlyOutsideUndefinedCases := by
  intro s hh
  rw [← memRead_ok_iff]
  cases hr : memRead s s.pc with
  | error r => simp [StepSafe, step_eq_refused hh hr]
  | ok p =>
    obtain ⟨w, u⟩ := p
    rw [stepSafe_iff_of_memRead hh hr]
    constructor
    · intro hdef
      refine ⟨⟨w, u, rfl⟩, fun w' u' e => ?_⟩
      cases e
      exact hdef
    · rintro ⟨-, hdef⟩
      exact hdef w u rfl

end Sys2Proof.Proofs
end
